-- ==== Sys2Proof/Word.lean ====
section
/-! DEFINITION. The word types of the block: 64-bit state words (00_scope.md R7, 10_state.md R10), the 66-bit command
word (30_encoding.md R30) and the 65-bit response word (R33). Bit 0 is the least significant bit (R7, 20_memory.md R21). -/

namespace Sys2Proof

/-- A state word, a seed or an integer result: unsigned, 64 bits (00_scope.md R7). -/
abbrev Word := BitVec 64

/-- The command word `CW[65:0] = cmd_op ∥ cmd_seed` (30_encoding.md R30). -/
abbrev CommandWord := BitVec 66

/-- The response word `RW[64:0] = rsp_err ∥ rsp_data` (30_encoding.md R33). -/
abbrev ResponseWord := BitVec 65

/-- The four state words `s[0]` to `s[3]`, in the document's order (10_state.md R10). -/
structure Words where
  s0 : Word
  s1 : Word
  s2 : Word
  s3 : Word
deriving DecidableEq, Repr, Inhabited

/-- The all-zero state of the glossary (00_scope.md R9). -/
def Words.zero : Words := ⟨0, 0, 0, 0⟩

end Sys2Proof
end

