-- ==== Sys2Proof/Machine/Arith.lean ====
section
/-! DEFINITION. The arithmetic primitives of 00_scope.md R8 and `rotl` (41_next_integer.md R50). All are total on 64-bit unsigned
words and wrap; a count outside its range is refused by the type, because the spec gives it no meaning (R90, 93 U1, log
entry 9). Exclusive-or and or are `^^^` and `|||`. -/

namespace Sys2Proof.Machine

/-- `mul64(a, b)`: the low 64 bits of the product (00_scope.md R8). -/
def mul64 (a b : Word) : Word := a * b

/-- `shr(x, n)`, 0 <= n <= 63: logical right shift (00_scope.md R8). -/
def shr (x : Word) (n : Nat) (_h : n ≤ 63 := by decide) : Word := x >>> n

/-- `shl(x, n)`, 0 <= n <= 63: left shift, bits shifted out discarded (00_scope.md R8). -/
def shl (x : Word) (n : Nat) (_h : n ≤ 63 := by decide) : Word := x <<< n

/-- `rotl(x, k)`, 1 <= k <= 63 (41_next_integer.md R50). -/
def rotl (x : Word) (k : Nat) (h : 1 ≤ k ∧ k ≤ 63 := by decide) : Word :=
  shl x k h.2 ||| shr x (64 - k) (by omega)

end Sys2Proof.Machine
end

