-- ==== Sys2Proof/Syntax.lean ====
section
/-! DEFINITION. The four commands of spec/opcode_table.json, one constructor per row (30_encoding.md R31). -/

namespace Sys2Proof

/-- A decoded command. The ignored `seed` bits of `NOP`, `NEXT` and `NEXTD` are no operand (30_encoding.md R34, log entry 11);
the four state words and the flag are implicit operands of every command (R32). -/
inductive Instr where
  /-- `NOP`, op 00 (43_nop.md R65). -/
  | nop
  /-- `INIT seed`, op 01 (40_seed_expander.md R41). -/
  | init (seed : Word)
  /-- `NEXT`, op 10 (41_next_integer.md R51). -/
  | next
  /-- `NEXTD`, op 11 (42_next_double.md R60). -/
  | nextd
deriving DecidableEq, Repr

end Sys2Proof
end

