-- ==== Sys2Proof/WellFormed.lean ====
section
/-! DEFINITION. Well-formedness. Every term of `Instr` is a legal command, because every 64-bit seed is legal
(30_encoding.md R32) and no encoding is reserved (R34): the type already carries the only bound there is. What can be
ill-formed is a number offered from outside, as a command word or as a seed literal; those are the checks here. -/

namespace Sys2Proof

/-- Every command is well-formed: "all 64-bit integers are valid seeds" (30_encoding.md R32). -/
def Instr.wellFormed : Instr → Bool
  | .nop => true
  | .init _ => true
  | .next => true
  | .nextd => true

/-- A number names a command word when it fits the 66 bits of 30_encoding.md R30. -/
def commandNumberFits (w : Nat) : Bool := decide (w < 2 ^ 66)

/-- A seed literal is 0 .. 18446744073709551615 (30_encoding.md R36). -/
def seedLiteralFits (n : Nat) : Bool := decide (n ≤ 18446744073709551615)

/-- A hexadecimal seed literal has 1 to 16 digits (30_encoding.md R36). -/
def hexDigitCountFits (n : Nat) : Bool := decide (1 ≤ n ∧ n ≤ 16)

end Sys2Proof
end

