-- ==== Sys2Proof/Decode.lean ====
section
/-! DEFINITION. Decoding a command word (30_encoding.md R30 to R32, R34, R37), total on the 66 bits, with the opcode map also
as the mask and match rows of R31; then the encoder the assembler uses (R36), and the response word (R33). -/

namespace Sys2Proof

/-- `CW[65:64]`, the field `op` (30_encoding.md R30). -/
def opField (cw : CommandWord) : BitVec 2 := cw.extractLsb' 64 2

/-- `CW[63:0]`, the field `seed`, used exactly as driven (30_encoding.md R30, R32). -/
def seedField (cw : CommandWord) : Word := cw.extractLsb' 0 64

/-- The command word of an opcode and a seed: `cmd_op ∥ cmd_seed` (30_encoding.md R30). -/
def commandWord (op : BitVec 2) (seed : Word) : CommandWord := op ++ seed

/-- The decoder of 30_encoding.md R31: four arms and no default, so no word is refused (R34). -/
def decode (cw : CommandWord) : Instr :=
  match (opField cw).toFin with
  | 0 => .nop
  | 1 => .init (seedField cw)
  | 2 => .next
  | 3 => .nextd

/-- Why a number is no command word. -/
inductive DecodeError where
  /-- Raised by `decodeNumber`: the number has a bit above bit 65, and a command is 66 bits (30_encoding.md R30). Safe. -/
  | widerThanCommandWord
deriving DecidableEq, Repr

/-- Decoding a number offered as a command word: rejected by name where it does not fit 66 bits. -/
def decodeNumber (w : Nat) : Except DecodeError Instr :=
  if commandNumberFits w then .ok (decode (BitVec.ofNat 66 w)) else .error .widerThanCommandWord

/-- The command word in the low `nbits` bits of a number, if it fits the 66 bits (log entry 12). -/
def tableCommandWord (nbits w : Nat) : Option CommandWord :=
  if commandNumberFits (w % 2 ^ nbits) then some (BitVec.ofNat 66 (w % 2 ^ nbits)) else none

/-- The command the decoder reads from `nbits` bits numbered as spec/opcode_table.json numbers them: the block has one word
per command, and its bit i is bit i of the number. -/
def decodeTableWord (nbits w : Nat) : Option Instr := (tableCommandWord nbits w).map decode

/-- A row of the opcode map as mask and match over `CW` (30_encoding.md R31). -/
structure OpcodeRow where
  mask : CommandWord
  pattern : CommandWord
deriving DecidableEq, Repr

/-- A command word belongs to a row when its masked bits are the row's match. -/
def OpcodeRow.covers (r : OpcodeRow) (cw : CommandWord) : Bool := (cw &&& r.mask) == r.pattern

/-- The four rows in the order of 30_encoding.md R31: `NOP`, `INIT`, `NEXT`, `NEXTD`. -/
def opcodeTable : List OpcodeRow :=
  [⟨0x30000000000000000#66, 0x00000000000000000#66⟩, ⟨0x30000000000000000#66, 0x10000000000000000#66⟩,
   ⟨0x30000000000000000#66, 0x20000000000000000#66⟩, ⟨0x30000000000000000#66, 0x30000000000000000#66⟩]

/-- The row of each command in `opcodeTable`. -/
def Instr.row : Instr → OpcodeRow
  | .nop => ⟨0x30000000000000000#66, 0x00000000000000000#66⟩
  | .init _ => ⟨0x30000000000000000#66, 0x10000000000000000#66⟩
  | .next => ⟨0x30000000000000000#66, 0x20000000000000000#66⟩
  | .nextd => ⟨0x30000000000000000#66, 0x30000000000000000#66⟩

/-- The word the assembler emits: `seed = 0` for `NOP`, `NEXT` and `NEXTD` (30_encoding.md R36). -/
def encode : Instr → CommandWord
  | .nop => commandWord 0b00#2 0#64
  | .init seed => commandWord 0b01#2 seed
  | .next => commandWord 0b10#2 0#64
  | .nextd => commandWord 0b11#2 0#64

end Sys2Proof
end

