-- ==== Sys2Proof/Config.lean ====
section
/-! DEFINITION. What the spec leaves open and the model names: the OPEN parameters of 00_scope.md R4. None has a body, so
no proof can learn a value. `ARB_ORDER` is an argument of the merge in Machine/System.lean; what the pins may show at
an edge is an argument of the port operations in Machine/Ports.lean. -/

namespace Sys2Proof

/-- `RESET_WORDS` (00_scope.md R4, 10_state.md R17): the words a reset inside a run leaves, a free value that may depend
on which reset it is and on the words before it ("may clear them, keep their old values or hold anything"). Log entry 2. -/
opaque Config.resetWords : Nat → Words → Words

/-- `LATENCY_NOP` (00_scope.md R4, 70_reset_and_hazards.md R92): a finite number of cycles; no rule depends on it. Log entry 6. -/
opaque Config.latencyNop : Nat
/-- `LATENCY_INIT`, likewise. -/
opaque Config.latencyInit : Nat
/-- `LATENCY_NEXT`, likewise. -/
opaque Config.latencyNext : Nat
/-- `LATENCY_NEXTD`, likewise. -/
opaque Config.latencyNextd : Nat

end Sys2Proof
end

