-- ==== Sys2Proof/Machine/State.lean ====
section
/-! DEFINITION. The state as plain data: the 257 bits of 10_state.md and the two streams of 30_encoding.md R35 and R38. The
block has no memory, no program counter, no mode and no other register (10_state.md R12, R13, 20_memory.md R20). -/

namespace Sys2Proof.Machine

/-- One response: `err` (1 where the command raised `NotSeeded`) and `data` (30_encoding.md R33). -/
structure Response where
  err : Bool
  data : Word
deriving DecidableEq, Repr

/-- A response produced and not yet delivered, with the `seeded` flag its command left, which the pin `seeded_o` shows once
the response is delivered (30_encoding.md R35). -/
structure Pending where
  rsp : Response
  flag : Bool
deriving DecidableEq, Repr

/-- What the host does to the block, one event each (00_scope.md R6, 30_encoding.md R35). -/
inductive Event where
  /-- A command is accepted: the pair `cmd_op ∥ cmd_seed` at an accepting edge. -/
  | command (cw : CommandWord)
  /-- The oldest response waiting is delivered, if there is one. -/
  | take
  /-- `rst` is asserted (70_reset_and_hazards.md R85). -/
  | reset
deriving DecidableEq, Repr

/-- The state. -/
structure State where
  /-- `s[0]` to `s[3]` (10_state.md R10). -/
  words : Words
  /-- The flag `seeded` (10_state.md R11). -/
  seeded : Bool
  /-- The host's stream still to come, a parameter of the run (00_scope.md R6, log entry 3). -/
  input : List Event
  /-- Responses produced and not yet delivered, oldest first (30_encoding.md R35). -/
  pending : List Pending
  /-- Responses delivered since the last reset, oldest first (30_encoding.md R38, 70_reset_and_hazards.md R86). -/
  delivered : List Response
  /-- The `seeded` flag left by the last command whose response was delivered (30_encoding.md R35). -/
  shown : Bool
  /-- The model's own counter of resets, which makes each draw of `Config.resetWords` fresh (log entry 2). -/
  resets : Nat
deriving DecidableEq, Repr

/-- What stops the machine: nothing. The block never halts (70_reset_and_hazards.md R95), and its one error, `NotSeeded`, is a
response after which it goes on (60_exceptions.md R72), so this type has no constructor (log entry 8). -/
inductive Fault
deriving DecidableEq, Repr

/-- Why a command has no meaning in the model. -/
inductive Refusal where
  /-- Raised by an arm of `exec` for a command not modelled yet; no arm raises it now. Safe: the machine only stops. -/
  | notModelled (mnemonic : String)
deriving DecidableEq, Repr

/-- What a meaning, an event and a step answer. -/
abbrev Outcome := Host.Outcome State Fault Refusal

/-- Right after reset (10_state.md R17, 70_reset_and_hazards.md R85): `seeded = 0`, no response pending, nothing presented.
DESIGN CHOICE: the spec promises no value for the words; zero is the model's (log entry 1). -/
def State.reset : State :=
  { words := Words.zero, seeded := false, input := [], pending := [], delivered := [], shown := false, resets := 0 }

end Sys2Proof.Machine
end

