-- ==== Sys2Proof/Machine/Flags.lean ====
section
/-! DEFINITION. The one flag, `seeded` (10_state.md R11), and the status word it is presented as (R13). The block has no
condition codes: no command sets a flag as a side effect of arithmetic (R11). -/

namespace Sys2Proof.Machine

/-- `seeded`, read. -/
def readSeeded (s : State) : Bool := s.seeded

/-- `seeded <- 1`, done by every `INIT` and by nothing else (10_state.md R11). -/
def setSeeded (s : State) : State := { s with seeded := true }

/-- `STATUS`, one read-only bit `SEEDED` (10_state.md R13). -/
def status (s : State) : BitVec 1 := BitVec.ofBool s.seeded

/-- The pin `seeded_o` (30_encoding.md R35): the flag left by the last command whose response has been delivered; while an
accepted `INIT` waits it may show the new flag already, and `early` says whether it does (93 U6, log entry 5). -/
def seededPin (early : Bool) (s : State) : Bool := if early then s.seeded else s.shown

end Sys2Proof.Machine
end

