-- ==== Sys2Proof/Machine/Operands.lean ====
section
/-! DEFINITION. The implicit operands of every command: the four state words, read and written by index (00_scope.md R7,
10_state.md R10). The one explicit operand, `seed`, is assembled by the decoder (30_encoding.md R32). -/

namespace Sys2Proof.Machine

/-- `s[i]`, a read of state word i. -/
def getWord (w : Words) (i : Fin 4) : Word :=
  match i with
  | 0 => w.s0
  | 1 => w.s1
  | 2 => w.s2
  | 3 => w.s3

/-- `s[i] <- v`: writing one word never changes another (10_state.md R10). -/
def setWord (w : Words) (i : Fin 4) (v : Word) : Words :=
  match i with
  | 0 => { w with s0 := v }
  | 1 => { w with s1 := v }
  | 2 => { w with s2 := v }
  | 3 => { w with s3 := v }

/-- All four words, as a command reads them. -/
def readWords (s : State) : Words := s.words

/-- All four words replaced together (20_memory.md R23). -/
def writeWords (w : Words) (s : State) : State := { s with words := w }

end Sys2Proof.Machine
end

