-- ==== Sys2Proof/Machine/Ops.lean ====
section
/-! DEFINITION. The named operations on the state that the meanings and the events share: answering a command, raising the one
error, delivering a response, reset. -/

namespace Sys2Proof.Machine

/-- The exceptions of the block: one (60_exceptions.md R71). -/
inductive Exception where
  | notSeeded
deriving DecidableEq, Repr

/-- The cause code, carried by `rsp_err`; code 0 is no error (60_exceptions.md R71). -/
def causeCode : Exception → BitVec 1
  | .notSeeded => 1#1

/-- `RW = err ∥ data` (30_encoding.md R33). -/
def responseWord (r : Response) : ResponseWord := BitVec.ofBool r.err ++ r.data

/-- `respond(err, data)`: the command's one response joins those waiting for delivery (00_scope.md R7, 30_encoding.md R33,
R38). It is the last act of a command, so the flag it carries is the one the command leaves. -/
def respond (err : Bool) (data : Word) (s : State) : State :=
  { s with pending := s.pending ++ [⟨⟨err, data⟩, s.seeded⟩] }

/-- Taking an exception (60_exceptions.md R72): the response is the cause code and data zero; nothing is saved, nothing is
written, control goes nowhere, and the command is complete. There is no return from it to model (R73). -/
def raise (e : Exception) (s : State) : State := respond (causeCode e == 1#1) 0#64 s

/-- Delivery of the oldest waiting response (30_encoding.md R35): it joins the delivered ones and `seeded_o` follows the flag
its command left. With none waiting `rsp_valid` is 0 and nothing is delivered. -/
def deliver (s : State) : State :=
  match s.pending with
  | [] => s
  | p :: rest => { s with pending := rest, delivered := s.delivered ++ [p.rsp], shown := p.flag }

/-- Reset (70_reset_and_hazards.md R85, R86): `seeded <- 0`, words unspecified (a free value, log entry 2), responses not
delivered are abandoned, and the response stream starts afresh. -/
def applyReset (s : State) : State :=
  { words := Config.resetWords s.resets s.words
    seeded := false
    input := s.input
    pending := []
    delivered := []
    shown := false
    resets := s.resets + 1 }

end Sys2Proof.Machine
end

