-- ==== Sys2Proof/Machine/Params.lean ====
section
/-! DEFINITION. The fixed parameters of 00_scope.md R4, under the table's names. `W` (64), `NWORDS` (4) and `OP_W` (2) are in the
types `Word`, `Words` and `BitVec 2`; the OPEN parameters are in Config.lean. -/

namespace Sys2Proof.Machine

/-- `MIX_SHIFT_A`. -/
def mixShiftA : Nat := 30
/-- `MIX_MUL_A`. -/
def mixMulA : Word := 0xBF58476D1CE4E5B9#64
/-- `MIX_SHIFT_B`. -/
def mixShiftB : Nat := 27
/-- `MIX_MUL_B`. -/
def mixMulB : Word := 0x94D049BB133111EB#64
/-- `MIX_SHIFT_C`. -/
def mixShiftC : Nat := 31
/-- `OUT_MUL_A`. -/
def outMulA : Word := 5#64
/-- `OUT_ROT`. -/
def outRot : Nat := 7
/-- `OUT_MUL_B`. -/
def outMulB : Word := 9#64
/-- `STEP_SHIFT`. -/
def stepShift : Nat := 17
/-- `STEP_ROT`. -/
def stepRot : Nat := 45
/-- `STEP_ROT_SRC`: the word rotated into `s[3]` is `s[1]`, as the document writes it (93_implementation_defined.md G2). -/
def stepRotSrc : Fin 4 := 1
/-- `DBL_SHIFT`. -/
def dblShift : Nat := 11
/-- `DBL_BITS`. -/
def dblBits : Nat := 53

end Sys2Proof.Machine
end

