-- ==== Sys2Proof/Machine/NextInteger.lean ====
section
/-! DEFINITION. The part `xoshiro256_next_integer_unit` (41_next_integer.md): the output function, the state step and the command
`NEXT`. Step 3 is evaluated in sequence (90_conflicts.md C2, log entry 10). -/

namespace Sys2Proof.Machine

/-- Step 1 of `NEXT`: `result = mul64(rotl(mul64(s[1], 5), 7), 9)`, from the old `s[1]` (41_next_integer.md R51). -/
def output (w : Words) : Word := mul64 (rotl (mul64 w.s1 outMulA) outRot) outMulB

/-- Steps 2 to 5 of `NEXT`, each statement seeing those above it (41_next_integer.md R51, 00_scope.md R7). -/
def nextWords (w : Words) : Words :=
  let t := shl w.s1 stepShift
  let w := setWord w 2 (w.s2 ^^^ w.s0)
  let w := setWord w 3 (w.s3 ^^^ w.s1)
  let w := setWord w 1 (w.s1 ^^^ w.s2)
  let w := setWord w 0 (w.s0 ^^^ w.s3)
  let w := setWord w 2 (w.s2 ^^^ t)
  setWord w 3 (rotl (getWord w stepRotSrc) stepRot)

/-- `NEXT` (41_next_integer.md R51): `NotSeeded` before anything is read where `seeded = 0`; else the output of the old words,
and the step, in one act. -/
def execNext (s : State) : Outcome :=
  if readSeeded s then
    .next (respond false (output (readWords s)) (writeWords (nextWords (readWords s)) s))
  else .next (raise .notSeeded s)

end Sys2Proof.Machine
end

