-- ==== Sys2Proof/Machine/NextDouble.lean ====
section
/-! DEFINITION. The double output (42_next_double.md): the conversion `u2d` to raw binary64 bits, and the command `NEXTD`. -/

namespace Sys2Proof.Machine

/-- `m = shr(result, 11)`, the top 53 bits, `result[63:11]` (42_next_double.md R60). -/
def topBits (result : Word) : BitVec 53 := (shr result dblShift).setWidth dblBits

/-- `u2d(m)`: the binary64 bits of `m * 2^-53` (42_next_double.md R61): with `p` the index of the most significant 1 bit of `m`,
sign 0, exponent `970 + p`, and the bits of `m` below its leading 1, left-aligned in 52 bits. -/
def u2d (m : BitVec 53) : Word :=
  if m = 0#53 then 0x0000000000000000#64
  else
    let p := Nat.log2 m.toNat
    let e : BitVec 11 := BitVec.ofNat 11 (970 + p)
    let f : BitVec 52 := BitVec.ofNat 52 ((m.toNat - 2 ^ p) * 2 ^ (52 - p))
    (0#1 ++ e) ++ f

/-- `NEXTD` (42_next_double.md R60): `NotSeeded` where `seeded = 0`; else the state goes exactly as under `NEXT`, and the
response is `u2d` of the output's top 53 bits. -/
def execNextd (s : State) : Outcome :=
  if readSeeded s then
    .next (respond false (u2d (topBits (output (readWords s)))) (writeWords (nextWords (readWords s)) s))
  else .next (raise .notSeeded s)

end Sys2Proof.Machine
end

