-- ==== Sys2Proof/Machine/Nop.lean ====
section
/-! DEFINITION. The idle command (43_nop.md). -/

namespace Sys2Proof.Machine

/-- `NOP` (43_nop.md R65): responds (0, 0); reads and writes no state, and does not read `seeded`. -/
def execNop (s : State) : Outcome := .next (respond false 0#64 s)

end Sys2Proof.Machine
end

