-- ==== Sys2Proof/Machine/SeedExpander.lean ====
section
/-! DEFINITION. The part `splitmix64_seed_expander` (40_seed_expander.md): `mix` and the command `INIT`. There is no additive
step (90_conflicts.md C1, C3, log entry 10). -/

namespace Sys2Proof.Machine

/-- `mix(z)`: a chain of five stages, each made from the value of the stage before (40_seed_expander.md R40). -/
def mix (z : Word) : Word :=
  let a := z ^^^ shr z mixShiftA
  let b := mul64 a mixMulA
  let c := b ^^^ shr b mixShiftB
  let d := mul64 c mixMulB
  d ^^^ shr d mixShiftC

/-- `init(seed)`: the running scrambler starts at the seed, and each result is both the next word and the next input
(40_seed_expander.md R41). -/
def expandSeed (seed : Word) : Words :=
  let z0 := mix seed
  let z1 := mix z0
  let z2 := mix z1
  let z3 := mix z2
  ⟨z0, z1, z2, z3⟩

/-- `INIT seed` (40_seed_expander.md R41, R44): every word overwritten, `seeded <- 1`, response (0, 0). It reads no state and
never fails, whatever the seed (R43). -/
def execInit (seed : Word) (s : State) : Outcome :=
  .next (respond false 0#64 (setSeeded (writeWords (expandSeed seed) s)))

end Sys2Proof.Machine
end

