-- ==== Sys2Proof/Machine/Dispatch.lean ====
section
/-! DEFINITION. One arm per command (30_encoding.md R31). -/

namespace Sys2Proof.Machine

def exec (i : Instr) (s : State) : Host.Outcome State Fault Refusal :=
  match i with
  | .nop => Sys2Proof.Machine.execNop s
  | .init seed => Sys2Proof.Machine.execInit seed s
  | .next => Sys2Proof.Machine.execNext s
  | .nextd => Sys2Proof.Machine.execNextd s

end Sys2Proof.Machine
end

