-- ==== Sys2Proof/Machine/Events.lean ====
section
/-! DEFINITION. What one event of the host does (30_encoding.md R35, R38, 70_reset_and_hazards.md R85), and a list of events one
after the other (20_memory.md R25). -/

namespace Sys2Proof.Machine

/-- One event: a command is decoded and executed at once (00_scope.md R5), a response is delivered, or the block is reset. -/
def handleEvent (e : Event) (s : State) : Outcome :=
  match e with
  | .command cw => exec (decode cw) s
  | .take => .next (deliver s)
  | .reset => .next (applyReset s)

/-- Events in order, each on the state the one before left (20_memory.md R25). -/
def runEvents : List Event → State → Outcome
  | [], s => .next s
  | e :: es, s =>
    match handleEvent e s with
    | .next t => runEvents es t
    | .fault f => .fault f
    | .refused r => .refused r

/-- The next step of the machine: the event at the head of the host's stream; with nothing presented the block stays as it
is, ready (70_reset_and_hazards.md R95). -/
def consumeInput (s : State) : Outcome :=
  match s.input with
  | [] => .next s
  | e :: rest => handleEvent e { s with input := rest }

/-- The host presents a command as the very next event (log entry 3). -/
def presentCommand (cw : CommandWord) (s : State) : State := { s with input := .command cw :: s.input }

end Sys2Proof.Machine
end

