-- ==== Sys2Proof/Machine/Step.lean ====
section
/-! DEFINITION. The step and how the host's checks place a command before it. -/

namespace Sys2Proof.Machine

/-- One step: one accepted command, one delivery or one reset is one atomic act (00_scope.md R5). -/
def step (s : State) : Host.Outcome State Fault Refusal := consumeInput s

/-- `s` with the command in the low `nbits` bits of `w` presented first; a number that is no command word presents nothing. -/
def State.withFetchWord (s : State) (nbits w : Nat) : State :=
  match tableCommandWord nbits w with
  | some cw => presentCommand cw s
  | none => s

end Sys2Proof.Machine
end

