-- ==== Sys2Proof/Machine/Assembler.lean ====
section
/-! DEFINITION. The textual form of a command sequence (30_encoding.md R36): text to the host's stream. Mnemonics are upper case,
one command a line, `;` starts a comment, `RESET` is the reset line, and there are no pseudo-instructions (R37). What the
grammar leaves open (blanks, digits, comments, newlines, errors) is log entry 13. -/

namespace Sys2Proof.Machine

/-- Why a text is no program; each names the line form of 30_encoding.md R36 that fails. -/
inductive AsmError where
  /-- A line is none of `NOP`, `INIT seed`, `NEXT`, `NEXTD`, `RESET`. -/
  | notACommand
  /-- A seed literal has another character than a digit, no digit, or is out of range. -/
  | badSeed
  /-- The last line has no newline. -/
  | noNewline
deriving DecidableEq, Repr

/-- The value of a decimal digit. -/
def decDigit (c : Char) : Option Nat :=
  if '0' ≤ c ∧ c ≤ '9' then some (c.toNat - 48) else none

/-- The value of a hexadecimal digit, in either case (log entry 13). -/
def hexDigit (c : Char) : Option Nat :=
  if '0' ≤ c ∧ c ≤ '9' then some (c.toNat - 48)
  else if 'A' ≤ c ∧ c ≤ 'F' then some (c.toNat - 55)
  else if 'a' ≤ c ∧ c ≤ 'f' then some (c.toNat - 87)
  else none

/-- Digits, most significant first, onto the value read so far. -/
def readDigits (base : Nat) (digit : Char → Option Nat) : List Char → Nat → Option Nat
  | [], n => some n
  | c :: cs, n =>
    match digit c with
    | some d => readDigits base digit cs (n * base + d)
    | none => none

/-- A seed literal (30_encoding.md R36): `0x` and 1 to 16 hexadecimal digits, or decimal 0 .. 18446744073709551615. -/
def parseSeed (cs : List Char) : Except AsmError Word :=
  match cs with
  | '0' :: 'x' :: ds =>
    match readDigits 16 hexDigit ds 0 with
    | some n => if hexDigitCountFits ds.length then .ok (BitVec.ofNat 64 n) else .error .badSeed
    | none => .error .badSeed
  | [] => .error .badSeed
  | ds =>
    match readDigits 10 decDigit ds 0 with
    | some n => if seedLiteralFits n then .ok (BitVec.ofNat 64 n) else .error .badSeed
    | none => .error .badSeed

/-- A line without its comment. DESIGN CHOICE (log entry 13): the grammar's `comment`, which the spec does not define, is every
character after the first `;` up to the LF, further `;` and a CR included, or none at all. -/
def stripComment : List Char → List Char
  | [] => []
  | c :: cs => if c = ';' then [] else c :: stripComment cs

/-- Whether a character separates the words of a line: a space or a tab (DESIGN CHOICE, log entry 13). -/
def isBlank (c : Char) : Bool := c == ' ' || c == '\t'

/-- The words of a line, `cur` being the one under way. -/
def splitWords : List Char → List Char → List (List Char)
  | [], cur => if cur.isEmpty then [] else [cur]
  | c :: cs, cur =>
    if isBlank c then (if cur.isEmpty then splitWords cs [] else cur :: splitWords cs [])
    else splitWords cs (cur ++ [c])

/-- The event of a line's words, if the line has any (30_encoding.md R36). -/
def assembleWords (ws : List (List Char)) : Except AsmError (List Event) :=
  match ws with
  | [] => .ok []
  | [w] =>
    if w = "NOP".toList then .ok [.command (encode .nop)]
    else if w = "NEXT".toList then .ok [.command (encode .next)]
    else if w = "NEXTD".toList then .ok [.command (encode .nextd)]
    else if w = "RESET".toList then .ok [.reset]
    else .error .notACommand
  | [w, lit] =>
    if w = "INIT".toList then
      match parseSeed lit with
      | .ok seed => .ok [.command (encode (.init seed))]
      | .error e => .error e
    else .error .notACommand
  | _ :: _ :: _ :: _ => .error .notACommand

/-- One line: its words, the comment left off. -/
def assembleLine (line : List Char) : Except AsmError (List Event) :=
  assembleWords (splitWords (stripComment line) [])

/-- The lines of a text, `cur` being the line under way. DESIGN CHOICE (log entry 13): the grammar's `newline`, which the spec does not
define, is the single character LF; a CR ends no line and, outside a comment, is part of a word. The first line that fails gives the error. -/
def assembleFrom : List Char → List Char → Except AsmError (List Event)
  | [], cur => if cur.isEmpty then .ok [] else .error .noNewline
  | c :: cs, cur =>
    if c = '\n' then
      match assembleLine cur, assembleFrom cs [] with
      | .ok es, .ok rest => .ok (es ++ rest)
      | .error e, _ => .error e
      | .ok _, .error e => .error e
    else assembleFrom cs (cur ++ [c])

/-- The program of a text, executed top to bottom (30_encoding.md R36). -/
def assemble (text : List Char) : Except AsmError (List Event) := assembleFrom text []

end Sys2Proof.Machine
end

