-- ==== Sys2Proof/Machine/Binary64.lean ====
section
/-! DEFINITION. Reading a binary64 pattern as a number, for claims about `NEXTD`: the layout the spec gives in 42_next_double.md
R61 and marks as general knowledge (93_implementation_defined.md G3, log entry 15). -/

namespace Sys2Proof.Machine

/-- The sign bit, bit 63. -/
def signBit (b : Word) : BitVec 1 := b.extractLsb' 63 1

/-- The biased exponent, bits 62:52. -/
def exponentField (b : Word) : BitVec 11 := b.extractLsb' 52 11

/-- The fraction, bits 51:0. -/
def fractionField (b : Word) : BitVec 52 := b.extractLsb' 0 52

/-- The value of a pattern the spec's layout gives one to (42_next_double.md R61): `+0.0` is all bits zero, and a normal number
is `1.fraction * 2^(exponent - 1023)` under its sign. Subnormals, -0.0, infinities and NaNs get none, so a claim that a
result has a value says it is none of them. -/
def binary64Value (b : Word) : Option ℚ :=
  if b = 0#64 then some 0
  else if (exponentField b).toNat = 0 ∨ (exponentField b).toNat = 2047 then none
  else
    some ((if signBit b = 1#1 then -1 else 1)
      * (1 + (fractionField b).toNat / (2 : ℚ) ^ 52) * (2 : ℚ) ^ ((exponentField b).toNat - 1023 : ℤ))

end Sys2Proof.Machine
end

