-- ==== Sys2Proof/Machine/Ports.lean ====
section
/-! DEFINITION. The pins of one instance and the two handshakes (30_encoding.md R35), as the way the streams of R38 appear on
wires. One rising edge of `clk` is a list of events; there is no clock in the state (00_scope.md R5). What an implementation
may choose at an edge is an argument, so a claim about the pins is a claim for every choice (log entries 5, 6, 7). -/

namespace Sys2Proof.Machine

/-- The pins the host drives, sampled at a rising edge of `clk` (30_encoding.md R35). -/
structure PinsIn where
  rst : Bool
  cmdValid : Bool
  cmdOp : BitVec 2
  cmdSeed : Word
  rspReady : Bool
deriving DecidableEq, Repr

/-- The pins the block drives (30_encoding.md R35). -/
structure PinsOut where
  cmdReady : Bool
  rspValid : Bool
  rspErr : Bool
  rspData : Word
  seededO : Bool
deriving DecidableEq, Repr

/-- What the spec leaves to the implementation at one edge (30_encoding.md R35, 70_reset_and_hazards.md R92). -/
structure EdgeChoice where
  /-- Whether the block can accept a command at this edge. -/
  cmdReady : Bool
  /-- Whether a response that waits is ready to be presented at this edge: its latency has passed. -/
  rspValid : Bool
  /-- Whether `seeded_o` already shows the flag of an `INIT` whose response waits (93 U6). -/
  early : Bool
  /-- What the response wires carry while `rsp_valid = 0`. -/
  idle : Response
deriving DecidableEq, Repr

/-- The command accepted at an edge: `rst = 0`, `cmd_valid = 1` and `cmd_ready = 1` (30_encoding.md R35). -/
def acceptEvents (p : PinsIn) (c : EdgeChoice) : List Event :=
  if !p.rst && p.cmdValid && c.cmdReady then [.command (commandWord p.cmdOp p.cmdSeed)] else []

/-- The events of an edge. With `rst = 1` nothing is accepted and nothing is delivered (60_exceptions.md R75,
70_reset_and_hazards.md R86). Otherwise acceptance comes first, so that a response of latency 0 may leave at the very edge;
an older response is unmoved by it (log entry 7). -/
def edgeEvents (p : PinsIn) (c : EdgeChoice) : List Event :=
  if p.rst then [.reset]
  else acceptEvents p c ++ (if c.rspValid && p.rspReady then [.take] else [])

/-- The state the block's pins show at an edge: any command accepted at the edge has executed. -/
def settle (p : PinsIn) (c : EdgeChoice) (s : State) : Outcome := runEvents (acceptEvents p c) s

/-- One rising edge of `clk`. -/
def clockEdge (p : PinsIn) (c : EdgeChoice) (s : State) : Outcome := runEvents (edgeEvents p c) s

/-- Edges one after the other, each on the state the one before left. -/
def runEdges : List (PinsIn × EdgeChoice) → State → Outcome
  | [], s => .next s
  | e :: es, s =>
    match clockEdge e.1 e.2 s with
    | .next t => runEdges es t
    | .fault f => .fault f
    | .refused r => .refused r

/-- The response on the wires at an edge: the oldest one waiting if it is presented, else whatever the wires carry. -/
def presentedResponse (c : EdgeChoice) (s : State) : Response :=
  match s.pending with
  | [] => c.idle
  | p :: _ => if c.rspValid then p.rsp else c.idle

/-- The pins the block drives, from the settled state (30_encoding.md R35). -/
def pinsOut (c : EdgeChoice) (s : State) : PinsOut :=
  { cmdReady := c.cmdReady
    rspValid := c.rspValid && !s.pending.isEmpty
    rspErr := (presentedResponse c s).err
    rspData := (presentedResponse c s).data
    seededO := seededPin c.early s }

/-- The latency parameter of each command (00_scope.md R4): it does not depend on the data (70_reset_and_hazards.md R92). -/
def commandLatency : Instr → Nat
  | .nop => Config.latencyNop
  | .init _ => Config.latencyInit
  | .next => Config.latencyNext
  | .nextd => Config.latencyNextd

end Sys2Proof.Machine
end

