-- ==== Sys2Proof/Machine/System.lean ====
section
/-! DEFINITION. Several instances, which share nothing (20_memory.md R28, 60_exceptions.md R79), and several hosts on one
instance, merged outside the block (70_reset_and_hazards.md R88). -/

namespace Sys2Proof.Machine

/-- An instance after one step of it; an instance that a step stopped would stay as it is, and none stops (log entry 8). -/
def advance (s : State) : State :=
  match step s with
  | .next t => t
  | .fault _ => s
  | .refused _ => s

/-- One instance after n steps of it alone. -/
def advanceBy : Nat → State → State
  | 0, s => s
  | n + 1, s => advanceBy n (advance s)

/-- A step of instance `i` of a system of instances: no other instance is read or written (20_memory.md R28). -/
def stepInstance (i : Nat) (sys : List State) : List State :=
  match sys, i with
  | [], _ => []
  | s :: rest, 0 => advance s :: rest
  | s :: rest, i + 1 => s :: stepInstance i rest

/-- An interleaving: which instance steps, one after the other. -/
def runSchedule : List Nat → List State → List State
  | [], sys => sys
  | i :: order, sys => runSchedule order (stepInstance i sys)

/-- `ARB_ORDER` (00_scope.md R4, 70_reset_and_hazards.md R88): several hosts' streams merged into one, `order` saying whose turn
it is; each event keeps the number of its host. The order is an argument (log entry 14). -/
def mergeHosts : List Nat → List (List Event) → List (Nat × Event)
  | [], _ => []
  | h :: order, hosts =>
    match hosts[h]? with
    | some (e :: rest) => (h, e) :: mergeHosts order (hosts.set h rest)
    | some [] => mergeHosts order hosts
    | none => mergeHosts order hosts

/-- What reaches the command port of the shared instance. -/
def mergedInput (order : List Nat) (hosts : List (List Event)) : List Event := (mergeHosts order hosts).map Prod.snd

/-- The events of one host among the merged ones, in the order they reached the port. -/
def shareOf (h : Nat) (merged : List (Nat × Event)) : List Event :=
  (merged.filter fun x => x.1 == h).map Prod.snd

end Sys2Proof.Machine
end

