-- ==== Sys2Proof/Machine/Transaction.lean ====
section
/-! DEFINITION. The whole machine as the spec sums it up: `step(σ, c) = (σ', r)` (30_encoding.md R38), a pure function of the
words, the flag and the command, with the closed form of the step (41_next_integer.md R51). Claims hold the machine of
Step.lean against it. -/

namespace Sys2Proof.Machine

/-- `next_state(a, b, c, d)` in closed form (41_next_integer.md R51). -/
def closedNext (w : Words) : Words :=
  ⟨w.s0 ^^^ w.s1 ^^^ w.s3,
   w.s0 ^^^ w.s1 ^^^ w.s2,
   w.s0 ^^^ w.s2 ^^^ shl w.s1 17,
   rotl (w.s0 ^^^ w.s1 ^^^ w.s2) 45⟩

/-- `step(σ, c)` with `σ = (s, seeded)` (30_encoding.md R38). -/
def transact (σ : Words × Bool) : Instr → (Words × Bool) × Response
  | .nop => (σ, ⟨false, 0#64⟩)
  | .init seed => ((⟨mix seed, mix (mix seed), mix (mix (mix seed)), mix (mix (mix (mix seed)))⟩, true), ⟨false, 0#64⟩)
  | .next => if σ.2 then ((closedNext σ.1, true), ⟨false, output σ.1⟩) else (σ, ⟨true, 0#64⟩)
  | .nextd => if σ.2 then ((closedNext σ.1, true), ⟨false, u2d (topBits (output σ.1))⟩) else (σ, ⟨true, 0#64⟩)

/-- A run: the state left by all commands, and the responses, the k-th being that of `step` on the state left by the
commands before (30_encoding.md R38). -/
def transactAll : Words × Bool → List Instr → (Words × Bool) × List Response
  | σ, [] => (σ, [])
  | σ, c :: cs =>
    let (σ', r) := transact σ c
    let (σ'', rs) := transactAll σ' cs
    (σ'', r :: rs)

end Sys2Proof.Machine
end

