-- ==== Sys2Proof/Safety.lean ====
section
/-! DEFINITION. What claims say of states and runs: the invariants of the ports, when a run is complete, which part of a state the
host can see, and command lists as events. -/

namespace Sys2Proof.Machine

/-- The flags along the ports only rise, from what `seeded_o` shows through the waiting responses to `seeded` itself: no
command clears the flag (10_state.md R11), and the pin lags behind it (30_encoding.md R35). -/
def flagsRise : Bool → List Pending → Bool → Bool
  | shown, [], seeded => shown == seeded
  | shown, p :: ps, seeded => (!shown || p.flag) && flagsRise p.flag ps seeded

/-- The responses the block has produced since the last reset, oldest first. -/
def responses (s : State) : List Response := s.delivered ++ s.pending.map Pending.rsp

/-- An error response carries data zero (30_encoding.md R33, 60_exceptions.md R71). -/
def errorsCarryZero (s : State) : Bool := (responses s).all fun r => !r.err || r.data == 0#64

/-- A waiting error response was made by a command that left `seeded = 0` (60_exceptions.md R71, R72). -/
def errorsAreUnseeded (s : State) : Bool := s.pending.all fun p => !p.rsp.err || !p.flag

/-- Before the first `INIT` no response carries data, so nothing of the unspecified words leaves the block (10_state.md R17). -/
def noDataBeforeSeed (s : State) : Bool := s.seeded || (responses s).all fun r => r.data == 0#64

/-- The invariant of the ports. -/
def PortsCoherent (s : State) : Prop :=
  flagsRise s.shown s.pending s.seeded = true ∧ errorsCarryZero s = true ∧ errorsAreUnseeded s = true
    ∧ noDataBeforeSeed s = true

/-- A run is complete when the host has stopped and every response has been delivered (70_reset_and_hazards.md R95). -/
def RunComplete (s : State) : Prop := s.input = [] ∧ s.pending = []

/-- The states a host cannot tell apart: equal but for words that no command can read, those of an unseeded block
(10_state.md R15, R17). -/
def HostSame (s t : State) : Prop :=
  s.seeded = t.seeded ∧ s.input = t.input ∧ s.pending = t.pending ∧ s.delivered = t.delivered ∧ s.shown = t.shown
    ∧ s.resets = t.resets ∧ (s.seeded = true → s.words = t.words)

/-- Commands as the events of their assembled words (30_encoding.md R36). -/
def commandEvents (cs : List Instr) : List Event := cs.map fun c => .command (encode c)

/-- Whether a command advances the state: `NEXT` and `NEXTD` do (43_nop.md R65, 42_next_double.md R60). -/
def advances : Instr → Bool
  | .nop => false
  | .init _ => false
  | .next => true
  | .nextd => true

/-- Whether a command is an `INIT`. -/
def isInit : Instr → Bool
  | .nop => false
  | .init _ => true
  | .next => false
  | .nextd => false

/-- The commands of a list of events, decoded, in order (30_encoding.md R38). -/
def commandsOf : List Event → List Instr
  | [] => []
  | .command cw :: es => decode cw :: commandsOf es
  | .take :: es => commandsOf es
  | .reset :: es => commandsOf es

/-- Whether no reset is among the events. -/
def noReset : List Event → Bool
  | [] => true
  | .command _ :: es => noReset es
  | .take :: es => noReset es
  | .reset :: _ => false

/-- The words after n steps of the stream. -/
def nextWordsBy : Nat → Words → Words
  | 0, w => w
  | n + 1, w => nextWordsBy n (nextWords w)

/-- Word by word exclusive-or of two four-word states (41_next_integer.md R57). -/
def xorWords (v w : Words) : Words := ⟨v.s0 ^^^ w.s0, v.s1 ^^^ w.s1, v.s2 ^^^ w.s2, v.s3 ^^^ w.s3⟩

end Sys2Proof.Machine
end

