-- ==== Sys2Proof/Certificates/Slice0/Obligations.lean ====
section
/-! DEFINITION. The statements for the provers, in the order of the spec's files; each docstring names what it formalises. The
lists at the ports, `input`, `pending` and `delivered`, are the model's form of the two streams of 30_encoding.md R38 (log
entries 3, 4). -/

open Sys2Proof Sys2Proof.Machine

/-! ### Encoding (30_encoding.md) -/

/-- The command words of the listings and vectors (95_test_vectors.md PR2, PR4, V-E7, V-E8, V-IF) decode to their commands. -/
def Obligations.SpecWordsDecode : Prop :=
  decode 0x00000000000000000#66 = .nop ∧ decode 0x1000000000000002A#66 = .init 42#64
    ∧ decode 0x20000000000000000#66 = .next ∧ decode 0x30000000000000000#66 = .nextd
    ∧ decode 0x0FFFFFFFFFFFFFFFF#66 = .nop ∧ decode 0x200000000DEADBEEF#66 = .next
    ∧ decode 0x1FFFFFFFFFFFFFFFF#66 = .init 0xFFFFFFFFFFFFFFFF#64

/-- R31: the opcode map, by field and by mask and match, for every one of the 2^66 words. -/
def Obligations.OpcodeMapByFieldAndMask : Prop :=
  ∀ cw : CommandWord,
    (cw.extractLsb' 64 2 = 0b00#2 ↔ decode cw = .nop)
    ∧ (cw.extractLsb' 64 2 = 0b01#2 ↔ decode cw = .init (cw.extractLsb' 0 64))
    ∧ (cw.extractLsb' 64 2 = 0b10#2 ↔ decode cw = .next)
    ∧ (cw.extractLsb' 64 2 = 0b11#2 ↔ decode cw = .nextd)
    ∧ (cw &&& 0x30000000000000000#66 = 0x00000000000000000#66 ↔ decode cw = .nop)
    ∧ (cw &&& 0x30000000000000000#66 = 0x10000000000000000#66 ↔ decode cw = .init (cw.extractLsb' 0 64))
    ∧ (cw &&& 0x30000000000000000#66 = 0x20000000000000000#66 ↔ decode cw = .next)
    ∧ (cw &&& 0x30000000000000000#66 = 0x30000000000000000#66 ↔ decode cw = .nextd)

/-- Decode and encode agree in both directions: no bit of `INIT`'s word is dropped, and of the other words exactly the ignored
operand bits are (R31, R34, R36). -/
def Obligations.DecodeEncodeAgree : Prop :=
  (∀ i : Instr, i.wellFormed = true → decode (encode i) = i)
    ∧ ∀ cw : CommandWord,
        encode (decode cw) = if isInit (decode cw) then cw else commandWord (cw.extractLsb' 64 2) 0#64

/-- R34: the `seed` bits of `NOP`, `NEXT` and `NEXTD` are ignored, whatever they are; no word is illegal; the assembler emits
zeros there. -/
def Obligations.OperandBitsIgnored : Prop :=
  (∀ (op : BitVec 2) (v w : Word) (s : State), op ≠ 0b01#2 →
      handleEvent (.command (commandWord op v)) s = handleEvent (.command (commandWord op w)) s)
    ∧ (∀ (cw : CommandWord) (s : State), ∃ t, handleEvent (.command cw) s = .next t)
    ∧ seedField (encode .nop) = 0#64 ∧ seedField (encode .next) = 0#64 ∧ seedField (encode .nextd) = 0#64

/-- R33: every command, in every state, completes with exactly one response, of the data and error bit of the rule's table, laid
out as `err` over `data`. -/
def Obligations.EveryCommandAnswersOnce : Prop :=
  (∀ (i : Instr) (s : State), ∃ (t : State) (r : Response),
    exec i s = .next t ∧ t.pending = s.pending ++ [⟨r, t.seeded⟩] ∧ t.delivered = s.delivered
    ∧ (i = .nop → r = ⟨false, 0#64⟩)
    ∧ (∀ seed, i = .init seed → r = ⟨false, 0#64⟩)
    ∧ (i = .next → s.seeded = true → r = ⟨false, output s.words⟩)
    ∧ (i = .nextd → s.seeded = true → r = ⟨false, u2d (topBits (output s.words))⟩)
    ∧ (i = .next ∨ i = .nextd → s.seeded = false → r = ⟨true, 0#64⟩))
  ∧ ∀ r : Response, (responseWord r).getLsbD 64 = r.err ∧ (responseWord r).extractLsb' 0 64 = r.data

/-- The frame of every command: what none of the four writes, and which words and flag each leaves (R10, R11, R14). -/
def Obligations.CommandFrame : Prop :=
  ∀ (i : Instr) (s t : State), exec i s = .next t →
    t.input = s.input ∧ t.delivered = s.delivered ∧ t.shown = s.shown ∧ t.resets = s.resets
    ∧ (∃ p, t.pending = s.pending ++ [p])
    ∧ (isInit i = false → t.seeded = s.seeded)
    ∧ (isInit i = false → s.seeded = false ∨ advances i = false → t.words = s.words)

/-! ### The step, runs and ports (30_encoding.md R35, R38, 20_memory.md R25) -/

/-- A step handles the event at the head of the host's stream, on the state whose stream no longer holds it: a command runs as
`exec` of the decoded command, a taking delivers, a reset resets; with nothing presented the state stays. -/
def Obligations.StepRunsTheNextEvent : Prop :=
  ∀ (s : State) (rest : List Event),
    (∀ cw i, s.input = .command cw :: rest → decode cw = i → step s = exec i { s with input := rest })
    ∧ (s.input = .take :: rest → step s = .next (deliver { s with input := rest }))
    ∧ (s.input = .reset :: rest → step s = .next (applyReset { s with input := rest }))
    ∧ (s.input = [] → step s = .next s)

/-- The block never halts (R95): every step, in every state, answers a next state. -/
def Obligations.StepNeverStops : Prop := ∀ s : State, ∃ t, step s = .next t

/-- R38: from any state, a stream of commands and deliveries leaves the words and the flag that `step(σ, c)` of the rule leaves,
and has produced exactly its responses, in order, none dropped, duplicated or reordered. The rule's functions are in
Machine/Transaction.lean, with the closed form of `next_state`. -/
def Obligations.RunIsTheTransactionFunction : Prop :=
  ∀ (es rest : List Event) (s : State), noReset es = true →
    ∃ t : State, Host.Core.run Sys2Proof.core es.length { s with input := es ++ rest } = .next t
      ∧ t.input = rest ∧ t.resets = s.resets
      ∧ (t.words, t.seeded) = (transactAll (s.words, s.seeded) (commandsOf es)).1
      ∧ responses t = responses s ++ (transactAll (s.words, s.seeded) (commandsOf es)).2

/-- A delivery moves the oldest waiting response and nothing else, and shows its flag; with none waiting nothing is delivered
(R35). -/
def Obligations.DeliveryTakesTheOldest : Prop :=
  ∀ s : State,
    (s.pending = [] → deliver s = s)
    ∧ ∀ p rest, s.pending = p :: rest →
        deliver s = { s with pending := rest, delivered := s.delivered ++ [p.rsp], shown := p.flag }

/-- The end of a run (R95): commands, then as many deliveries as there are responses, leave a complete run, and the host has
taken one response per command, those of R38, in order. -/
def Obligations.RunCompletesWhenTaken : Prop :=
  ∀ (cs : List Instr) (s : State),
    ∃ t : State,
      Host.Core.run Sys2Proof.core (cs.length + (s.pending.length + cs.length))
        { s with input := commandEvents cs ++ List.replicate (s.pending.length + cs.length) Event.take } = .next t
      ∧ RunComplete t
      ∧ (t.words, t.seeded) = (transactAll (s.words, s.seeded) cs).1
      ∧ t.delivered = s.delivered ++ s.pending.map Pending.rsp ++ (transactAll (s.words, s.seeded) cs).2

/-- The invariant of the ports is kept by every step, in every state that meets it: the flag only rises along the ports, errors
carry zero and come from an unseeded block, and no data leaves before the first `INIT`. -/
def Obligations.StepKeepsPortsCoherent : Prop :=
  ∀ s t : State, PortsCoherent s → step s = .next t → PortsCoherent t

/-- The invariant holds right after reset. -/
def Obligations.ResetIsPortsCoherent : Prop := PortsCoherent State.reset

/-- `seeded_o` in a coherent state (R35, 93 U6): it shows the old flag or the new one, never 1 on an unseeded block, and the flag
itself when no response waits. -/
def Obligations.SeededPinShowsOldOrNew : Prop :=
  ∀ (s : State) (early : Bool), PortsCoherent s →
    (seededPin early s = s.shown ∨ seededPin early s = s.seeded)
    ∧ (s.seeded = false → seededPin early s = false)
    ∧ (s.pending = [] → seededPin early s = s.seeded)

/-- The handshakes at one edge (R35, R75, R86): what is accepted, what is delivered, and that reset wins. -/
def Obligations.EdgeHandshakes : Prop :=
  ∀ (p : PinsIn) (c : EdgeChoice) (s : State),
    (p.rst = true → clockEdge p c s = .next (applyReset s))
    ∧ (p.rst = false → p.cmdValid = true → c.cmdReady = true → (c.rspValid && p.rspReady) = false →
        clockEdge p c s = exec (decode (p.cmdOp ++ p.cmdSeed)) s)
    ∧ (p.rst = false → (p.cmdValid && c.cmdReady) = false → c.rspValid = true → p.rspReady = true →
        clockEdge p c s = .next (deliver s))
    ∧ (p.rst = false → p.cmdValid = true → c.cmdReady = true → c.rspValid = true → p.rspReady = true →
        ∀ t, exec (decode (p.cmdOp ++ p.cmdSeed)) s = .next t → clockEdge p c s = .next (deliver t))
    ∧ (p.rst = false → (p.cmdValid && c.cmdReady) = false → (c.rspValid && p.rspReady) = false →
        clockEdge p c s = .next s)

/-- What stands on the response wires (R35): while `rsp_valid = 1`, the oldest waiting response, the one a delivery takes. -/
def Obligations.PresentedResponseIsTheOldest : Prop :=
  ∀ (c : EdgeChoice) (s : State), (pinsOut c s).rspValid = true →
    ∃ p rest, s.pending = p :: rest ∧ (pinsOut c s).rspErr = p.rsp.err ∧ (pinsOut c s).rspData = p.rsp.data

/-- A response presented and not delivered is held (R35): after any number of further edges without reset at which nothing is
delivered, whether or not `rsp_valid` stays up and whatever is accepted, the next edge at which the block presents a response
shows the same `rsp_err` and `rsp_data`. -/
def Obligations.UndeliveredResponseIsHeld : Prop :=
  ∀ (p p' : PinsIn) (c c' : EdgeChoice) (between : List (PinsIn × EdgeChoice)) (s s₁ s₂ s₃ : State),
    p.rst = false → settle p c s = .next s₁ → (pinsOut c s₁).rspValid = true → p.rspReady = false →
    (∀ e ∈ between, e.1.rst = false ∧ (e.2.rspValid && e.1.rspReady) = false) →
    runEdges ((p, c) :: between) s = .next s₂ → settle p' c' s₂ = .next s₃ → (pinsOut c' s₃).rspValid = true →
    (pinsOut c' s₃).rspErr = (pinsOut c s₁).rspErr ∧ (pinsOut c' s₃).rspData = (pinsOut c s₁).rspData

/-- While a response waits, accepting a command and delivering that response can happen in either order with one result, so an
edge that does both is well defined (the model's inference, log entry 7). -/
def Obligations.AcceptanceAndDeliveryCommute : Prop :=
  ∀ (cw : CommandWord) (s : State), s.pending ≠ [] →
    ∃ t, runEvents [.command cw, .take] s = .next t ∧ runEvents [.take, .command cw] s = .next t

/-! ### State, flag and reset (10_state.md, 70_reset_and_hazards.md) -/

/-- R11: `seeded` is 0 after reset, set by every `INIT`, cleared by reset alone; `NEXT` and `NEXTD` raise where it is 0, and `NOP`
and `INIT` answer the same whatever it is. -/
def Obligations.SeededWrittenByInitAndReset : Prop :=
  State.reset.seeded = false
    ∧ (∀ (i : Instr) (s t : State), exec i s = .next t → t.seeded = (s.seeded || isInit i))
    ∧ (∀ s : State, (deliver s).seeded = s.seeded ∧ (applyReset s).seeded = false)
    ∧ (∀ (s t : State), s.seeded = false → exec .next s = .next t ∨ exec .nextd s = .next t →
        t = raise .notSeeded s)
    ∧ (∀ (i : Instr) (s t t' : State) (b : Bool), advances i = false → exec i s = .next t →
        exec i { s with seeded := b } = .next t' →
        t'.words = t.words ∧ t'.pending.map Pending.rsp = t.pending.map Pending.rsp)

/-- `STATUS` (R13) is the one bit `SEEDED`: 0 after reset, 1 exactly where the flag is set, and written by no command but `INIT`. -/
def Obligations.StatusWordIsTheFlag : Prop :=
  status State.reset = 0#1
    ∧ (∀ s : State, status s = 1#1 ↔ s.seeded = true)
    ∧ ∀ (i : Instr) (s t : State), isInit i = false → exec i s = .next t → status t = status s

/-- R85: reset clears `seeded`, leaves no response pending and the block ready for a command; the words are whatever it leaves,
about which nothing is said; power-on is a reset. -/
def Obligations.ResetState : Prop :=
  (∀ (s : State) (rest : List Event), s.input = .reset :: rest →
    ∃ t, step s = .next t ∧ t.seeded = false ∧ t.pending = [] ∧ t.input = rest
      ∧ ∀ i : Instr, ∃ u, exec i t = .next u)
  ∧ State.reset.seeded = false ∧ State.reset.pending = []

/-- Commands in flight at a reset are abandoned and the response stream starts afresh (R86): whatever came before, the first
response delivered after a reset answers the first command accepted after it. -/
def Obligations.ResetAbandonsResponses : Prop :=
  ∀ (es : List Event) (s : State) (i : Instr),
    ∃ t, runEvents (es ++ [.reset, .command (encode i), .take]) s = .next t
      ∧ t.pending = []
      ∧ t.delivered = [⟨advances i, 0#64⟩]

/-- The words of an unseeded block are not observable (R17, R15, 93 U3): states that differ only in them stay so under every list
of events, resets among them, so no response and no pin ever depends on them. -/
def Obligations.UnseededWordsUnobservable : Prop :=
  ∀ (es : List Event) (s t : State), HostSame s t →
    ∃ s' t', runEvents es s = .next s' ∧ runEvents es t = .next t' ∧ HostSame s' t'
      ∧ ∀ c : EdgeChoice, pinsOut c s' = pinsOut c t'

/-- Before the first `INIT` every `NEXT` and `NEXTD` answers `NotSeeded`, for ever (R87, R73); from then on no command fails, whatever
the seed and the state (R70, R76). -/
def Obligations.BringUpIsOneInit : Prop :=
  ∀ (cs : List Instr) (s : State),
    ∃ t, runEvents (commandEvents cs) s = .next t
      ∧ (s.seeded = false → cs.all (fun c => !isInit c) = true →
          t.pending.map Pending.rsp = s.pending.map Pending.rsp ++ cs.map (fun c => ⟨advances c, 0#64⟩))
      ∧ (s.seeded = true → ∃ ds : List Word, ds.length = cs.length
          ∧ t.pending.map Pending.rsp = s.pending.map Pending.rsp ++ ds.map (fun d => ⟨false, d⟩))

/-! ### The seed expander (40_seed_expander.md) -/

/-- R40: the five stages of `mix` as a chain, each as arithmetic on numbers, and the rule's worked example. -/
def Obligations.MixIsTheFiveStageChain : Prop :=
  (∀ z : Word, ∃ a b c d : Word,
    a = z ^^^ BitVec.ofNat 64 (z.toNat / 2 ^ 30)
    ∧ b.toNat = a.toNat * 0xBF58476D1CE4E5B9 % 2 ^ 64
    ∧ c = b ^^^ BitVec.ofNat 64 (b.toNat / 2 ^ 27)
    ∧ d.toNat = c.toNat * 0x94D049BB133111EB % 2 ^ 64
    ∧ mix z = d ^^^ BitVec.ofNat 64 (d.toNat / 2 ^ 31))
  ∧ mix 1#64 = 0x5692161D100B05E5#64

/-- `mix` is a bijection that maps 0 to 0 (the spec's inference in 40_seed_expander.md: "a chain of bijections is a bijection"). -/
def Obligations.MixIsBijective : Prop :=
  mix 0#64 = 0#64 ∧ Function.Bijective mix ∧ ∀ z, mix z = 0#64 → z = 0#64

/-- R41: `INIT seed`, from the word `0x1 ∥ seed`, in every state: the four iterates of `mix`, `seeded` set, response (0, 0), nothing
else; and the rule's worked example. -/
def Obligations.InitExpandsTheSeed : Prop :=
  (∀ (seed : Word) (s : State),
    decode (BitVec.ofNat 66 (0x10000000000000000 + seed.toNat)) = .init seed
    ∧ exec (.init seed) s = .next
        { s with
          words := ⟨mix seed, mix (mix seed), mix (mix (mix seed)), mix (mix (mix (mix seed)))⟩
          seeded := true
          pending := s.pending ++ [⟨⟨false, 0x0000000000000000#64⟩, true⟩] })
  ∧ expandSeed 1#64 = ⟨0x5692161D100B05E5#64, 0x7AB40E090F363A7D#64, 0x71CAC37448049CE4#64, 0x683B5FC0CA803DC3#64⟩

/-- The all-zero state comes from seed 0 alone, and every other seed makes all four words non-zero (the spec's inference in
40_seed_expander.md: "So the all-zero state is reached from `INIT` only by seed 0."). -/
def Obligations.OnlySeedZeroIsAllZero : Prop :=
  ∀ (seed : Word) (s : State), ∃ t, exec (.init seed) s = .next t
    ∧ (t.words = ⟨0, 0, 0, 0⟩ ↔ seed = 0#64)
    ∧ (seed ≠ 0#64 → ∀ i : Fin 4, getWord t.words i ≠ 0#64)

/-- Distinct seeds give distinct states, already in `s[0]`, and the states `INIT` can leave are exactly those in which each word is
`mix` of the one before (the spec's inferences in 40_seed_expander.md: "Distinct seeds give distinct states", "The
reachable states"). -/
def Obligations.InitStatesAreMixChains : Prop :=
  (∀ v w : Word, v ≠ w → (expandSeed v).s0 ≠ (expandSeed w).s0)
    ∧ ∀ ws : Words, (∃ seed, expandSeed seed = ws) ↔ (ws.s1 = mix ws.s0 ∧ ws.s2 = mix ws.s1 ∧ ws.s3 = mix ws.s2)

/-- After `INIT` with one seed, two blocks with any past, or one block seeded again, answer every list of commands alike and end in
the same words (R44, property P1 of 95_test_vectors.md). -/
def Obligations.SameSeedSameStream : Prop :=
  ∀ (seed : Word) (cs : List Instr) (s t : State),
    ∃ (s' t' : State) (rs : List Response),
      runEvents (commandEvents (.init seed :: cs)) s = .next s'
      ∧ runEvents (commandEvents (.init seed :: cs)) t = .next t'
      ∧ s'.pending.map Pending.rsp = s.pending.map Pending.rsp ++ rs
      ∧ t'.pending.map Pending.rsp = t.pending.map Pending.rsp ++ rs
      ∧ s'.words = t'.words ∧ s'.seeded = t'.seeded

/-! ### The next-integer unit (41_next_integer.md, 00_scope.md R8) -/

/-- The primitives as arithmetic on numbers (R8): products, and shifts within 0 to 63, wrap or drop, and never trap. -/
def Obligations.PrimitivesWrap : Prop :=
  ∀ x y : Word,
    (mul64 x y).toNat = x.toNat * y.toNat % 2 ^ 64
    ∧ ∀ (n : Nat) (h : n ≤ 63),
        (shr x n h).toNat = x.toNat / 2 ^ n ∧ (shl x n h).toNat = x.toNat * 2 ^ n % 2 ^ 64

/-- `rotl` (R50): bit i of `x` becomes bit (i + k) mod 64, the two halves never overlap, and rotating on by 64 - k gives `x` back,
for every count in 1..63. -/
def Obligations.RotlRotates : Prop :=
  ∀ (x : Word) (k : Nat) (h : 1 ≤ k ∧ k ≤ 63),
    rotl x k h = shl x k h.2 ||| shr x (64 - k) (by omega)
    ∧ (∀ i, i < 64 → (rotl x k h).getLsbD ((i + k) % 64) = x.getLsbD i)
    ∧ shl x k h.2 &&& shr x (64 - k) (by omega) = 0#64
    ∧ rotl (rotl x k h) (64 - k) (by omega) = x

/-- R51: `NEXT` in every seeded state: the output of the old `s[1]`, and the words by the rule's statements in sequence, each
seeing those above it, all else as it was; in every unseeded state `NotSeeded` and nothing else; its word; the worked example from
`INIT 42`. The closed form, which the spec derives, is `Obligations.StepHasItsClosedForm`. -/
def Obligations.NextStepsInSequence : Prop :=
  (∀ s : State, s.seeded = true →
    exec .next s = .next
      (let a := s.words.s0; let b := s.words.s1; let c := s.words.s2; let d := s.words.s3
       let result := mul64 (rotl (mul64 b 5) 7) 9
       let t := shl b 17
       let c' := c ^^^ a
       let d' := d ^^^ b
       let b' := b ^^^ c'
       let a' := a ^^^ d'
       { s with
         words := ⟨a', b', c' ^^^ t, rotl b' 45⟩
         pending := s.pending ++ [⟨⟨false, result⟩, true⟩] }))
  ∧ (∀ s : State, s.seeded = false →
      exec .next s = .next { s with pending := s.pending ++ [⟨⟨true, 0#64⟩, false⟩] })
  ∧ decode 0x20000000000000000#66 = .next
  ∧ output ⟨0xA759EA27D4727622#64, 0x97EA87F7E45C00A5#64, 0xCD32F5BB1623F15E#64, 0xF1783145B1B64794#64⟩
      = 0x1CF34992160E84D3#64
  ∧ nextWords ⟨0xA759EA27D4727622#64, 0x97EA87F7E45C00A5#64, 0xCD32F5BB1623F15E#64, 0xF1783145B1B64794#64⟩
      = ⟨0xC1CB5C9581983113#64, 0xFD81986B260D87D9#64, 0x6584D724C31B877C#64, 0xB0FB3FB0330D64C1#64⟩

/-- After a `NEXT` or `NEXTD` that does not raise, `s[3] = rotl(s[1], 45)` (41_next_integer.md: "After every `NEXT` or `NEXTD` that
does not raise"). -/
def Obligations.StepLeavesRotatedWord : Prop :=
  ∀ (i : Instr) (s : State), advances i = true → s.seeded = true →
    ∃ t, exec i s = .next t ∧ t.words.s3 = rotl t.words.s1 45

/-- Exactly which states share a successor: those that differ by one word exclusive-ored into `s[0]`, `s[2]` and `s[3]`; they share
the output too (the spec's inference in 41_next_integer.md: "two states share a successor only if they are related in
this way"). -/
def Obligations.StepCollisionsExactly : Prop :=
  ∀ v w : Words,
    (nextWords v = nextWords w ↔ ∃ x : Word, w = ⟨v.s0 ^^^ x, v.s1, v.s2 ^^^ x, v.s3 ^^^ x⟩)
    ∧ (nextWords v = nextWords w → output v = output w)

/-- The all-zero state is a fixed point with output 0, and its predecessors are exactly the states (a, 0, a, a) (the spec's inference
in 41_next_integer.md: "The all-zero state is a fixed point."). -/
def Obligations.ZeroStatePredecessors : Prop :=
  nextWords ⟨0, 0, 0, 0⟩ = ⟨0, 0, 0, 0⟩ ∧ output ⟨0, 0, 0, 0⟩ = 0#64
    ∧ ∀ w : Words, nextWords w = ⟨0, 0, 0, 0⟩ ↔ (w.s1 = 0#64 ∧ w.s2 = w.s0 ∧ w.s3 = w.s0)

/-- After `INIT 0` every command short of another seed answers (0, 0), for ever (R43, R91, R54). -/
def Obligations.SeedZeroStreamIsDead : Prop :=
  ∀ (cs : List Instr) (s : State), cs.all (fun c => !isInit c) = true →
    ∃ t, runEvents (commandEvents (.init 0#64 :: cs)) s = .next t
      ∧ t.words = ⟨0, 0, 0, 0⟩ ∧ t.seeded = true
      ∧ t.pending.map Pending.rsp
          = s.pending.map Pending.rsp ++ List.replicate (cs.length + 1) (⟨false, 0#64⟩ : Response)

/-- The output is a bijective function of the old `s[1]` alone (the spec's inference in 41_next_integer.md: "The output is a bijective
function of the old `s[1]`"), so it is 0 exactly when that word is. -/
def Obligations.OutputIsBijectiveInSecondWord : Prop :=
  (∀ v w : Words, output v = output w ↔ v.s1 = w.s1)
    ∧ (∀ (a c d y : Word), ∃ b, output ⟨a, b, c, d⟩ = y)
    ∧ ∀ w : Words, output w = 0#64 ↔ w.s1 = 0#64

/-- The step is linear over GF(2) (the spec's inference in 41_next_integer.md: "`next_state` is linear over GF(2)"). -/
def Obligations.StepIsLinear : Prop :=
  ∀ v w : Words, nextWords (xorWords v w) = xorWords (nextWords v) (nextWords w)

/-! ### The double output (42_next_double.md) -/

/-- R60: `NEXTD` in every seeded state: the words exactly as `NEXT` leaves them, and `u2d` of the top 53 bits of the integer `NEXT`
would have answered, a double in [0, 1) (its bits read by 42_next_double.md R61); in every unseeded state `NotSeeded` and nothing
else; its word; the worked example from `INIT 1`. -/
def Obligations.NextdReportsTheSameStep : Prop :=
  (∀ s : State, s.seeded = true →
    (topBits (output s.words)).toNat = (output s.words).toNat / 2 ^ 11
    ∧ (∃ q : ℚ, binary64Value (u2d (topBits (output s.words))) = some q ∧ 0 ≤ q ∧ q < 1)
    ∧ exec .nextd s = .next
        { s with
          words := nextWords s.words
          pending := s.pending ++ [⟨⟨false, u2d (topBits (output s.words))⟩, true⟩] }
    ∧ exec .next s = .next
        { s with
          words := nextWords s.words
          pending := s.pending ++ [⟨⟨false, output s.words⟩, true⟩] })
  ∧ (∀ s : State, s.seeded = false →
      exec .nextd s = .next { s with pending := s.pending ++ [⟨⟨true, 0#64⟩, false⟩] })
  ∧ decode 0x30000000000000000#66 = .nextd
  ∧ u2d (topBits (output ⟨0x5692161D100B05E5#64, 0x7AB40E090F363A7D#64, 0x71CAC37448049CE4#64, 0x683B5FC0CA803DC3#64⟩))
      = 0x3FEA67797AC8847F#64

/-- `u2d(m)` is the binary64 pattern of exactly `m * 2^-53`, for every m below 2^53: so never negative, never -0.0, never subnormal,
infinite or a NaN (R61; the layout is the spec's general knowledge, log entry 15). -/
def Obligations.DoubleIsExact : Prop :=
  ∀ m : BitVec 53, binary64Value (u2d m) = some ((m.toNat : ℚ) / 2 ^ 53)

/-- The range of `NEXTD` (42_next_double.md: "So for every call `nextDouble` returns a value `v` with `0.0 <= v < 1.0`"): +0.0 for the
integers below 2^11, else from 2^-53 to 1 - 2^-53, both reached; and different `m` give different doubles. -/
def Obligations.DoubleRange : Prop :=
  (∀ r : Word, (r.toNat < 2 ^ 11 → u2d (topBits r) = 0#64)
    ∧ (2 ^ 11 ≤ r.toNat → 0x3CA0000000000000 ≤ (u2d (topBits r)).toNat
        ∧ (u2d (topBits r)).toNat ≤ 0x3FEFFFFFFFFFFFFF))
  ∧ u2d (topBits 0x0000000000000800#64) = 0x3CA0000000000000#64
  ∧ u2d (topBits 0xFFFFFFFFFFFFF800#64) = 0x3FEFFFFFFFFFFFFF#64
  ∧ Function.Injective u2d

/-! ### The idle command and the stream (43_nop.md) -/

/-- R65: `NOP`, from any word of opcode 00, in every state: response (0, 0) and nothing else, so that a command after it leaves the
same words and flag and gives the same response as without it. -/
def Obligations.NopDoesNothing : Prop :=
  (∀ seed : Word, decode (0b00#2 ++ seed) = .nop) ∧ encode .nop = 0x00000000000000000#66
  ∧ (∀ s : State, exec .nop s = .next { s with pending := s.pending ++ [⟨⟨false, 0x0000000000000000#64⟩, s.seeded⟩] })
  ∧ ∀ (i : Instr) (s t u v : State), exec .nop s = .next t → exec i t = .next u → exec i s = .next v →
      u.words = v.words ∧ u.seeded = v.seeded ∧ u.pending.getLast? = v.pending.getLast?

/-- The words are a function of the seed and of the number of `NEXT` and `NEXTD` commands since `INIT`; `NOP` is not counted, and which
of the two advances was used does not matter (R65, R60). -/
def Obligations.StreamIsSeedAndCount : Prop :=
  ∀ (seed : Word) (cs : List Instr) (s : State), cs.all (fun c => !isInit c) = true →
    ∃ t, runEvents (commandEvents (.init seed :: cs)) s = .next t ∧ t.seeded = true
      ∧ t.words = nextWordsBy (cs.countP advances) (expandSeed seed)

/-! ### The one error (60_exceptions.md) -/

/-- R71, R72: `NotSeeded` has cause code 1, is raised by `NEXT` and `NEXTD` exactly where `seeded = 0`, and leaves every part of the state
as it was but for the command's one response (1, 0); no other command answers an error. -/
def Obligations.NotSeededIsPrecise : Prop :=
  causeCode .notSeeded = 1#1
  ∧ (∀ s : State, s.seeded = false →
      exec .next s = .next { s with pending := s.pending ++ [⟨⟨true, 0x0000000000000000#64⟩, false⟩] }
      ∧ exec .nextd s = .next { s with pending := s.pending ++ [⟨⟨true, 0x0000000000000000#64⟩, false⟩] })
  ∧ ∀ (i : Instr) (s t : State) (r : Response), exec i s = .next t →
      t.pending = s.pending ++ [⟨r, t.seeded⟩] → (r.err = true ↔ (advances i = true ∧ s.seeded = false))

/-- R73: the error is not sticky: whatever command follows one that raised does exactly what it would have done without it; `NEXT` and
`NEXTD` raise it again, `NOP` answers (0, 0), and `INIT` succeeds and ends the condition. -/
def Obligations.NotSeededIsNotSticky : Prop :=
  ∀ (i j : Instr) (s t u v : State), s.seeded = false → advances i = true → exec i s = .next t →
    exec j t = .next u → exec j s = .next v →
    u.words = v.words ∧ u.seeded = v.seeded ∧ u.pending.getLast? = v.pending.getLast?
      ∧ (advances j = true → u.pending = t.pending ++ [⟨⟨true, 0#64⟩, false⟩])
      ∧ (j = .nop → u.pending = t.pending ++ [⟨⟨false, 0#64⟩, false⟩])
      ∧ (isInit j = true → u.seeded = true ∧ u.pending = t.pending ++ [⟨⟨false, 0#64⟩, true⟩])

/-! ### Several instances and several hosts (20_memory.md R28, 70_reset_and_hazards.md R88) -/

/-- Instances share nothing (R28, R79): under every interleaving, each instance is left exactly as when it runs alone for as many
steps. -/
def Obligations.InstancesAreIndependent : Prop :=
  ∀ (order : List Nat) (sys : List State) (i : Nat),
    (runSchedule order sys)[i]? = (sys[i]?).map (advanceBy (order.count i))

/-- Several hosts on one command port (R88): whatever the order, what reaches the port from one host is exactly the initial part of
that host's own stream, in its own order, that its turns allow: one event a turn, as long as it has any. The merge stands outside
the block, and how a turn is written is the model's choice (log entry 14). -/
def Obligations.MergeKeepsEachHostsOrder : Prop :=
  ∀ (order : List Nat) (hosts : List (List Event)) (h : Nat),
    shareOf h (mergeHosts order hosts) = ((hosts[h]?).getD []).take (order.count h)

/-! ### Assembler text (30_encoding.md R36) -/

/-- A text is executed top to bottom (R36): two programs one after the other assemble to their events one after the other. -/
def Obligations.ProgramsConcatenate : Prop :=
  ∀ (a b : List Char) (ea eb : List Event), assemble a = .ok ea → assemble b = .ok eb →
    assemble (a ++ b) = .ok (ea ++ eb)

/-- Every seed is read from each of its literals (R36): in decimal, and after `0x` from 1 to 16 hexadecimal digits, padded with zeros
or not, each digit in either case; a hexadecimal literal of no digit or of more than 16, and a decimal number out of range, are
refused. That both cases of digit and leading zeros of a decimal are read is the model's choice (log entry 13). -/
def Obligations.EverySeedHasItsLiterals : Prop :=
  (∀ (seed : Word) (zeros : Nat),
    parseSeed (List.replicate zeros '0' ++ Nat.toDigits 10 seed.toNat) = .ok seed
    ∧ ∀ ds : List Char, ds.map Char.toLower = List.replicate zeros '0' ++ Nat.toDigits 16 seed.toNat → ds.length ≤ 16 →
        parseSeed ('0' :: 'x' :: ds) = .ok seed)
  ∧ (∀ ds : List Char, ds.length = 0 ∨ 16 < ds.length → parseSeed ('0' :: 'x' :: ds) = .error .badSeed)
  ∧ ∀ n : Nat, 18446744073709551615 < n → parseSeed (Nat.toDigits 10 n) = .error .badSeed

/-- The whole listing of program PR2 (95_test_vectors.md, its eight lines, the note on line 3 written as a comment) assembles to its
reset and its seven command words; the largest decimal seed and a hexadecimal one are read, and 2^64 is refused (R36). -/
def Obligations.ListingAssembles : Prop :=
  assemble "RESET\nNOP\nNEXT ; NotSeeded\nNEXTD\nINIT 42\nNEXT\nNEXT\nNEXT\n".toList
      = .ok [.reset, .command 0x00000000000000000#66, .command 0x20000000000000000#66,
             .command 0x30000000000000000#66, .command 0x1000000000000002A#66, .command 0x20000000000000000#66,
             .command 0x20000000000000000#66, .command 0x20000000000000000#66]
  ∧ assemble "INIT 18446744073709551615\nINIT 0x2A\n".toList
      = .ok [.command 0x1FFFFFFFFFFFFFFFF#66, .command 0x1000000000000002A#66]
  ∧ assemble "INIT 18446744073709551616\n".toList = .error .badSeed

/-! ### The closed form of the step (41_next_integer.md) -/

/-- The five statements of the step in sequence come to the closed form of `next_state`, for all words, and so `NEXT` and `NEXTD` leave
it in every seeded state (the spec's inference in 41_next_integer.md: "by substituting the statements above in order"). -/
def Obligations.StepHasItsClosedForm : Prop :=
  (∀ a b c d : Word,
    nextWords ⟨a, b, c, d⟩ = ⟨a ^^^ b ^^^ d, a ^^^ b ^^^ c, a ^^^ c ^^^ shl b 17, rotl (a ^^^ b ^^^ c) 45⟩)
  ∧ ∀ (i : Instr) (s : State), advances i = true → s.seeded = true →
      ∃ t, exec i s = .next t ∧ t.words = closedNext s.words
end

