-- ==== Sys2Proof/Laws/State.lean ====
section
/-! SUPPORT. One lemma per field per update of the state, so that no later proof unfolds a record update. Each is `rfl` once the
state is taken apart. They are not stated by a bare `rfl`: simp would then leave `f s` against `s` to the kernel's conversion,
which compares the four words first, through the arithmetic. A proof that closes such a goal by `rfl` takes `s` apart first. -/

namespace Sys2Proof.Laws

open Sys2Proof.Machine

@[simp] theorem writeWords_words (w : Words) (s : State) : (writeWords w s).words = w := by cases s; rfl
@[simp] theorem writeWords_seeded (w : Words) (s : State) : (writeWords w s).seeded = s.seeded := by cases s; rfl
@[simp] theorem writeWords_input (w : Words) (s : State) : (writeWords w s).input = s.input := by cases s; rfl
@[simp] theorem writeWords_pending (w : Words) (s : State) : (writeWords w s).pending = s.pending := by cases s; rfl
@[simp] theorem writeWords_delivered (w : Words) (s : State) : (writeWords w s).delivered = s.delivered := by cases s; rfl
@[simp] theorem writeWords_shown (w : Words) (s : State) : (writeWords w s).shown = s.shown := by cases s; rfl
@[simp] theorem writeWords_resets (w : Words) (s : State) : (writeWords w s).resets = s.resets := by cases s; rfl

@[simp] theorem setSeeded_words (s : State) : (setSeeded s).words = s.words := by cases s; rfl
@[simp] theorem setSeeded_seeded (s : State) : (setSeeded s).seeded = true := by cases s; rfl
@[simp] theorem setSeeded_input (s : State) : (setSeeded s).input = s.input := by cases s; rfl
@[simp] theorem setSeeded_pending (s : State) : (setSeeded s).pending = s.pending := by cases s; rfl
@[simp] theorem setSeeded_delivered (s : State) : (setSeeded s).delivered = s.delivered := by cases s; rfl
@[simp] theorem setSeeded_shown (s : State) : (setSeeded s).shown = s.shown := by cases s; rfl
@[simp] theorem setSeeded_resets (s : State) : (setSeeded s).resets = s.resets := by cases s; rfl

@[simp] theorem respond_words (err : Bool) (data : Word) (s : State) : (respond err data s).words = s.words := by cases s; rfl
@[simp] theorem respond_seeded (err : Bool) (data : Word) (s : State) : (respond err data s).seeded = s.seeded := by cases s; rfl
@[simp] theorem respond_input (err : Bool) (data : Word) (s : State) : (respond err data s).input = s.input := by cases s; rfl
@[simp] theorem respond_pending (err : Bool) (data : Word) (s : State) : (respond err data s).pending = s.pending ++ [⟨⟨err, data⟩, s.seeded⟩] := by cases s; rfl
@[simp] theorem respond_delivered (err : Bool) (data : Word) (s : State) : (respond err data s).delivered = s.delivered := by cases s; rfl
@[simp] theorem respond_shown (err : Bool) (data : Word) (s : State) : (respond err data s).shown = s.shown := by cases s; rfl
@[simp] theorem respond_resets (err : Bool) (data : Word) (s : State) : (respond err data s).resets = s.resets := by cases s; rfl

@[simp] theorem raise_words (e : Exception) (s : State) : (raise e s).words = s.words := by cases s; rfl
@[simp] theorem raise_seeded (e : Exception) (s : State) : (raise e s).seeded = s.seeded := by cases s; rfl
@[simp] theorem raise_input (e : Exception) (s : State) : (raise e s).input = s.input := by cases s; rfl
@[simp] theorem raise_pending (e : Exception) (s : State) : (raise e s).pending = s.pending ++ [⟨⟨true, 0#64⟩, s.seeded⟩] := by cases e; cases s; rfl
@[simp] theorem raise_delivered (e : Exception) (s : State) : (raise e s).delivered = s.delivered := by cases s; rfl
@[simp] theorem raise_shown (e : Exception) (s : State) : (raise e s).shown = s.shown := by cases s; rfl
@[simp] theorem raise_resets (e : Exception) (s : State) : (raise e s).resets = s.resets := by cases s; rfl

@[simp] theorem applyReset_words (s : State) : (applyReset s).words = Config.resetWords s.resets s.words := by cases s; rfl
@[simp] theorem applyReset_seeded (s : State) : (applyReset s).seeded = false := by cases s; rfl
@[simp] theorem applyReset_input (s : State) : (applyReset s).input = s.input := by cases s; rfl
@[simp] theorem applyReset_pending (s : State) : (applyReset s).pending = [] := by cases s; rfl
@[simp] theorem applyReset_delivered (s : State) : (applyReset s).delivered = [] := by cases s; rfl
@[simp] theorem applyReset_shown (s : State) : (applyReset s).shown = false := by cases s; rfl
@[simp] theorem applyReset_resets (s : State) : (applyReset s).resets = s.resets + 1 := by cases s; rfl

@[simp] theorem presentCommand_words (cw : CommandWord) (s : State) : (presentCommand cw s).words = s.words := by cases s; rfl
@[simp] theorem presentCommand_seeded (cw : CommandWord) (s : State) : (presentCommand cw s).seeded = s.seeded := by cases s; rfl
@[simp] theorem presentCommand_input (cw : CommandWord) (s : State) : (presentCommand cw s).input = Event.command cw :: s.input := by cases s; rfl
@[simp] theorem presentCommand_pending (cw : CommandWord) (s : State) : (presentCommand cw s).pending = s.pending := by cases s; rfl
@[simp] theorem presentCommand_delivered (cw : CommandWord) (s : State) : (presentCommand cw s).delivered = s.delivered := by cases s; rfl
@[simp] theorem presentCommand_shown (cw : CommandWord) (s : State) : (presentCommand cw s).shown = s.shown := by cases s; rfl
@[simp] theorem presentCommand_resets (cw : CommandWord) (s : State) : (presentCommand cw s).resets = s.resets := by cases s; rfl

@[simp] theorem deliver_words (s : State) : (deliver s).words = s.words := by unfold deliver; split <;> rfl
@[simp] theorem deliver_seeded (s : State) : (deliver s).seeded = s.seeded := by unfold deliver; split <;> rfl
@[simp] theorem deliver_input (s : State) : (deliver s).input = s.input := by unfold deliver; split <;> rfl
@[simp] theorem deliver_resets (s : State) : (deliver s).resets = s.resets := by unfold deliver; split <;> rfl

@[simp] theorem getWord_setWord_same (w : Words) (i : Fin 4) (v : Word) : getWord (setWord w i v) i = v := by
  match i with
  | 0 => rfl
  | 1 => rfl
  | 2 => rfl
  | 3 => rfl

theorem getWord_setWord_other (w : Words) (i j : Fin 4) (v : Word) (h : i ≠ j) :
    getWord (setWord w i v) j = getWord w j := by
  match i, j, h with
  | 0, 1, _ | 0, 2, _ | 0, 3, _ | 1, 0, _ | 1, 2, _ | 1, 3, _ => rfl
  | 2, 0, _ | 2, 1, _ | 2, 3, _ | 3, 0, _ | 3, 1, _ | 3, 2, _ => rfl
  | 0, 0, h | 1, 1, h | 2, 2, h | 3, 3, h => exact absurd rfl h

end Sys2Proof.Laws
end

