-- ==== Sys2Proof/Laws/Ops.lean ====
section
/-! SUPPORT. One lemma per shared operation that says what it can do, for proofs to cite instead of unfolding it. -/

namespace Sys2Proof.Laws

open Sys2Proof.Machine

theorem deliver_none {s : State} (h : s.pending = []) : deliver s = s := by simp [deliver, h]

theorem deliver_some {s : State} {p : Pending} {rest : List Pending} (h : s.pending = p :: rest) :
    deliver s = { s with pending := rest, delivered := s.delivered ++ [p.rsp], shown := p.flag } := by
  simp [deliver, h]

theorem raise_eq (e : Exception) (s : State) : raise e s = respond true 0#64 s := by cases e; rfl

theorem exec_nop (s : State) : exec .nop s = .next (respond false 0#64 s) := rfl

theorem exec_init (seed : Word) (s : State) :
    exec (.init seed) s = .next (respond false 0#64 (setSeeded (writeWords (expandSeed seed) s))) := rfl

theorem exec_next_seeded {s : State} (h : s.seeded = true) :
    exec .next s = .next (respond false (output s.words) (writeWords (nextWords s.words) s)) := by
  simp only [exec, execNext, readSeeded, readWords, h, if_true]

theorem exec_nextd_seeded {s : State} (h : s.seeded = true) :
    exec .nextd s = .next (respond false (u2d (topBits (output s.words))) (writeWords (nextWords s.words) s)) := by
  simp only [exec, execNextd, readSeeded, readWords, h, if_true]

theorem exec_next_unseeded {s : State} (h : s.seeded = false) : exec .next s = .next (respond true 0#64 s) := by
  simp only [exec, execNext, readSeeded, h, raise_eq, Bool.false_eq_true, if_false]

theorem exec_nextd_unseeded {s : State} (h : s.seeded = false) : exec .nextd s = .next (respond true 0#64 s) := by
  simp only [exec, execNextd, readSeeded, h, raise_eq, Bool.false_eq_true, if_false]

/-- The two cases of `NEXT` and `NEXTD`, and the one case of `NOP` and `INIT`. -/
theorem exec_cases {i : Instr} {s t : State} (h : exec i s = .next t) :
    (i = .nop ∧ t = respond false 0#64 s) ∨
    (∃ seed, i = .init seed ∧ t = respond false 0#64 (setSeeded (writeWords (expandSeed seed) s))) ∨
    (i = .next ∧ s.seeded = true ∧ t = respond false (output s.words) (writeWords (nextWords s.words) s)) ∨
    (i = .nextd ∧ s.seeded = true
      ∧ t = respond false (u2d (topBits (output s.words))) (writeWords (nextWords s.words) s)) ∨
    ((i = .next ∨ i = .nextd) ∧ s.seeded = false ∧ t = respond true 0#64 s) := by
  cases i with
  | nop => exact .inl ⟨rfl, by cases h; rfl⟩
  | init seed => exact .inr (.inl ⟨seed, rfl, by cases h; rfl⟩)
  | next =>
    cases hs : s.seeded with
    | true => exact .inr (.inr (.inl ⟨rfl, rfl, by rw [exec_next_seeded hs] at h; cases h; rfl⟩))
    | false => exact .inr (.inr (.inr (.inr ⟨.inl rfl, rfl, by rw [exec_next_unseeded hs] at h; cases h; rfl⟩)))
  | nextd =>
    cases hs : s.seeded with
    | true => exact .inr (.inr (.inr (.inl ⟨rfl, rfl, by rw [exec_nextd_seeded hs] at h; cases h; rfl⟩)))
    | false => exact .inr (.inr (.inr (.inr ⟨.inr rfl, rfl, by rw [exec_nextd_unseeded hs] at h; cases h; rfl⟩)))

/-- What one event can do. -/
theorem handleEvent_cases {e : Event} {s t : State} (h : handleEvent e s = .next t) :
    (∃ cw, e = .command cw ∧ exec (decode cw) s = .next t) ∨ (e = .take ∧ t = deliver s)
      ∨ (e = .reset ∧ t = applyReset s) := by
  cases e with
  | command cw => exact .inl ⟨cw, rfl, h⟩
  | take => exact .inr (.inl ⟨rfl, by cases h; rfl⟩)
  | reset => exact .inr (.inr ⟨rfl, by cases h; rfl⟩)

theorem runEvents_nil (s : State) : runEvents [] s = .next s := rfl

theorem runEvents_cons_next {e : Event} {es : List Event} {s t : State} (h : handleEvent e s = .next t) :
    runEvents (e :: es) s = runEvents es t := by simp only [runEvents, h]

theorem runEvents_append_next {es fs : List Event} {s t : State} (h : runEvents es s = .next t) :
    runEvents (es ++ fs) s = runEvents fs t := by
  induction es generalizing s with
  | nil => cases h; rfl
  | cons e es ih =>
    simp only [runEvents, List.cons_append] at h ⊢
    split at h
    · exact ih h
    · cases h
    · cases h

theorem runEdges_cons_next {e : PinsIn × EdgeChoice} {es : List (PinsIn × EdgeChoice)} {s t : State}
    (h : clockEdge e.1 e.2 s = .next t) : runEdges (e :: es) s = runEdges es t := by simp only [runEdges, h]

/-- An edge without reset at which nothing is delivered only settles. -/
theorem clockEdge_quiet {p : PinsIn} {c : EdgeChoice} (s : State) (hr : p.rst = false)
    (hd : (c.rspValid && p.rspReady) = false) : clockEdge p c s = settle p c s := by
  simp only [clockEdge, settle, edgeEvents, hr, hd, Bool.false_eq_true, if_false, List.append_nil]

theorem flagsRise_append {shown seeded flag : Bool} {ps : List Pending} (r : Response)
    (h : flagsRise shown ps seeded = true) (hf : seeded = true → flag = true) :
    flagsRise shown (ps ++ [⟨r, flag⟩]) flag = true := by
  induction ps generalizing shown with
  | nil => cases shown <;> cases seeded <;> cases flag <;> simp_all [flagsRise]
  | cons p ps ih =>
    simp only [flagsRise, List.cons_append, Bool.and_eq_true] at h ⊢
    exact ⟨h.1, ih h.2⟩

theorem opField_commandWord (op : BitVec 2) (seed : Word) : opField (commandWord op seed) = op :=
  BitVec.extractLsb'_append_eq_left

theorem seedField_commandWord (op : BitVec 2) (seed : Word) : seedField (commandWord op seed) = seed :=
  BitVec.extractLsb'_append_eq_right

end Sys2Proof.Laws
end

