-- ==== Sys2Proof/Laws/PerInstr.lean ====
section
/-! SUPPORT. Statements made once per command. -/

/-- The word the assembler emits for a command lies in the command's row of the opcode map, under its mask and match
(30_encoding.md R31, R36), and in no other row. -/
def Sys2Proof.Laws.TableRow.Statement (i : Sys2Proof.Instr) : Prop :=
  ∀ r ∈ Sys2Proof.opcodeTable, r.covers (Sys2Proof.encode i) = (r == i.row)

theorem Sys2Proof.Laws.TableRow.nop : Sys2Proof.Laws.TableRow.Statement .nop := by
  unfold Sys2Proof.Laws.TableRow.Statement; decide

/-- Masking bits 65:64 of a command word leaves its opcode over zeros. -/
theorem Sys2Proof.Laws.TableRow.masked (op : BitVec 2) (seed : Sys2Proof.Word) :
    Sys2Proof.commandWord op seed &&& 0x30000000000000000#66 = op ++ 0#64 := by
  have hmask : (0x30000000000000000#66 : BitVec 66) = (3#2 ++ 0#64 : BitVec 66) := by decide
  have hop : op &&& 3#2 = op := BitVec.and_allOnes
  rw [hmask, Sys2Proof.commandWord, BitVec.and_append, hop, BitVec.and_zero]

theorem Sys2Proof.Laws.TableRow.init (seed : Sys2Proof.Word) : Sys2Proof.Laws.TableRow.Statement (.init seed) := by
  intro r hr
  simp only [Sys2Proof.opcodeTable, List.mem_cons, List.not_mem_nil, or_false] at hr
  rcases hr with rfl | rfl | rfl | rfl <;>
    simp only [Sys2Proof.OpcodeRow.covers, Sys2Proof.encode, Sys2Proof.Instr.row,
      Sys2Proof.Laws.TableRow.masked] <;> decide

theorem Sys2Proof.Laws.TableRow.next : Sys2Proof.Laws.TableRow.Statement .next := by
  unfold Sys2Proof.Laws.TableRow.Statement; decide

theorem Sys2Proof.Laws.TableRow.nextd : Sys2Proof.Laws.TableRow.Statement .nextd := by
  unfold Sys2Proof.Laws.TableRow.Statement; decide
end

