-- ==== Sys2Proof/Tests/Slice0.lean ====
section
/-! SUPPORT. The model's own tests, each with its expected result from spec/95_test_vectors.md or a worked example, and for every
obligation with hypotheses a witness that meets them all. -/

namespace Sys2Proof.Tests

open Sys2Proof Sys2Proof.Machine

/-- A seeded state with the given words and nothing at the ports. -/
def seededState (w : Words) : State := { State.reset with words := w, seeded := true, shown := true }

/-- The words after `INIT 1` and after `INIT 42` (V-I1, V-I42). -/
def wordsOne : Words := ⟨0x5692161D100B05E5#64, 0x7AB40E090F363A7D#64, 0x71CAC37448049CE4#64, 0x683B5FC0CA803DC3#64⟩
def wordsFortyTwo : Words := ⟨0xA759EA27D4727622#64, 0x97EA87F7E45C00A5#64, 0xCD32F5BB1623F15E#64, 0xF1783145B1B64794#64⟩

/-- The next state, to compare. -/
def nextOf : Outcome → Option State
  | .next s => some s
  | .fault _ => none
  | .refused _ => none

/-- The words a meaning leaves and the last response it made. -/
def effect (o : Outcome) : Option (Words × Bool × Option Response) :=
  (nextOf o).map fun s => (s.words, s.seeded, s.pending.getLast?.map Pending.rsp)

/-! ### Well-formedness: an ill-formed term for each check -/

theorem test_command_number_of_67_bits_refused : commandNumberFits (2 ^ 66) = false := by decide
theorem test_command_number_of_66_bits_fits : commandNumberFits (2 ^ 66 - 1) = true := by decide
theorem test_seed_literal_too_large_refused : seedLiteralFits 18446744073709551616 = false := by decide
theorem test_hex_without_digits_refused : hexDigitCountFits 0 = false := by decide
theorem test_hex_of_17_digits_refused : hexDigitCountFits 17 = false := by decide
theorem test_every_command_wellformed : (Instr.init 0xFFFFFFFFFFFFFFFF#64).wellFormed = true := by decide

/-! ### Decoding: words written out from 30_encoding.md R30, R31, bit by bit -/

theorem test_decode_nop_word : decode (0b00#2 ++ 0x0000000000000000#64) = .nop := by decide
theorem test_decode_init_word : decode (0b01#2 ++ 0x000000000000002A#64) = .init 42#64 := by decide
theorem test_decode_next_word : decode (0b10#2 ++ 0x00000000DEADBEEF#64) = .next := by decide
theorem test_decode_nextd_word : decode (0b11#2 ++ 0xFFFFFFFFFFFFFFFF#64) = .nextd := by decide
theorem test_table_word_of_72_bits : decodeTableWord 72 0x1000000000000002A = some (.init 42#64) := by decide
theorem test_table_word_of_66_bits : decodeTableWord 66 0x30000000000000000 = some .nextd := by decide
theorem test_number_above_66_bits_rejected_by_name : (decodeNumber (2 ^ 66)).toOption = none := by decide
theorem test_response_word_of_error : responseWord ⟨true, 0#64⟩ = 0x10000000000000000#65 := by decide
theorem test_response_word_of_data :
    responseWord ⟨false, 0xD33BCBD64423FE42#64⟩ = 0x0D33BCBD64423FE42#65 := by decide

/-! ### Functions (95_test_vectors.md 3.1, 3.2, 3.6) -/

theorem test_rotl_by_45 : rotl 0x0123456789ABCDEF#64 45 = 0x79BDE02468ACF135#64 := by decide
theorem test_shl_drops_the_top : shl 0xFFFFFFFFFFFFFFFF#64 17 = 0xFFFFFFFFFFFE0000#64 := by decide
theorem test_shr_is_logical : shr 0x8000000000000000#64 31 = 0x0000000100000000#64 := by decide
theorem test_mul_wraps_to_two : mul64 0x1C71C71C71C71C72#64 9#64 = 2#64 := by decide
theorem test_mix_of_42 : mix 42#64 = 0xA759EA27D4727622#64 := by decide
theorem test_double_below_one_eighth : u2d (topBits 0x1CF34992160E84D3#64) = 0x3FBCF34992160E80#64 := by decide
theorem test_double_smallest : u2d (topBits 0x0000000000000800#64) = 0x3CA0000000000000#64 := by decide

/-! ### Commands: one step each -/

/-- V-E6: `NOP` on the state of `INIT 1`. -/
theorem test_nop_keeps_words : effect (exec .nop (seededState wordsOne)) = some (wordsOne, true, some ⟨false, 0#64⟩) := by decide
/-- V-E3: `NOP` in the reset state. -/
theorem test_nop_unseeded : effect (exec .nop State.reset) = some (Words.zero, false, some ⟨false, 0#64⟩) := by decide
/-- V-E10: seeding again forgets the old state. -/
theorem test_init_one_over_another :
    effect (exec (.init 1#64) (seededState wordsFortyTwo)) = some (wordsOne, true, some ⟨false, 0#64⟩) := by decide
/-- V-IF: the all-ones seed. -/
theorem test_init_all_ones : effect (exec (.init 0xFFFFFFFFFFFFFFFF#64) State.reset)
    = some (⟨0xB4D055FCF2CBBD7B#64, 0x4BFFD802EBFB15E4#64, 0xDD2E126981C8585F#64, 0x093671A35A825908#64⟩, true,
        some ⟨false, 0#64⟩) := by decide
/-- V-H1: sequential evaluation, new `s[0]` = 7, not 5. -/
theorem test_next_is_sequential : effect (exec .next (seededState ⟨1#64, 2#64, 3#64, 4#64⟩))
    = some (⟨7#64, 0#64, 0x40002#64, 0#64⟩, true, some ⟨false, 0x2D00#64⟩) := by decide
/-- V-E1: `NEXT` before any `INIT`. -/
theorem test_next_unseeded : effect (exec .next State.reset) = some (Words.zero, false, some ⟨true, 0#64⟩) := by decide
/-- V-N1.1: `NEXTD` after `INIT 1`. -/
theorem test_nextd_after_init_one : effect (exec .nextd (seededState wordsOne))
    = some (⟨0x441D47D4D5BD025B#64, 0x5DECDB605739A37C#64, 0x3B4ACB052CF59901#64, 0x346F8BBD9B6C0AE7#64⟩, true,
        some ⟨false, 0x3FEA67797AC8847F#64⟩) := by decide
/-- V-H5: the low 11 bits of a non-zero result are dropped. -/
theorem test_nextd_drops_low_bits : effect (exec .nextd (seededState ⟨0#64, 0x8000000000000000#64, 0#64, 0#64⟩))
    = some (⟨0x8000000000000000#64, 0x8000000000000000#64, 0#64, 0x0000100000000000#64⟩, true, some ⟨false, 0#64⟩) := by
  decide

/-! ### The step, the ports and the assembler -/

/-- PR2 line 5 as the first command after reset. -/
theorem test_placed_command_runs_first :
    effect (step (State.reset.withFetchWord 66 0x1000000000000002A)) = some (wordsFortyTwo, true, some ⟨false, 0#64⟩) := by
  decide
theorem test_idle_step_changes_nothing : nextOf (step State.reset) = some State.reset := by decide
/-- V-E9: a reset clears the flag and abandons what waits. -/
theorem test_reset_event : ((nextOf (step { seededState wordsOne with input := [.reset], pending := [⟨⟨false, 5#64⟩, true⟩] })).map
    fun s => (s.seeded, s.pending, s.shown)) = some (false, [], false) := by decide
/-- 30_encoding.md R35: between the acceptance of the first `INIT` and the delivery of its response the pin may show either. -/
theorem test_seeded_pin_early_or_late : ((nextOf (exec (.init 1#64) State.reset)).map
    fun s => (seededPin true s, seededPin false s, seededPin false (deliver s))) = some (true, false, true) := by decide
theorem test_assembler_hex_and_comment :
    (assemble "\tINIT 0x2a ; forty-two\n".toList).toOption = some [.command 0x1000000000000002A#66] := by decide
theorem test_assembler_lower_case_refused : (assemble "next\n".toList).toOption = none := by decide
/-- Log entry 13: a CR is part of a word. -/
theorem test_assembler_crlf_refused : (assemble "NOP\r\n".toList).toOption = none := by decide
/-- A comment runs to the LF, further semicolons and a CR included, and may be empty (R36; DESIGN CHOICE, log entry 13). -/
theorem test_assembler_comment_to_lf :
    (assemble "NOP;\n;; a;b\r\nNEXT;\n".toList).toOption = (assemble "NOP\nNEXT\n".toList).toOption
    ∧ (assemble "NOP\nNEXT\n".toList).toOption = some [.command (encode .nop), .command (encode .next)] := by decide
theorem test_assembler_needs_newline : (assemble "NOP".toList).toOption = none := by decide
/-- PR5: the two instances do not disturb each other. -/
theorem test_other_instance_untouched : (stepInstance 0 [State.reset, seededState wordsOne])[1]? = some (seededState wordsOne) := by
  decide
theorem test_merge_takes_turns : (mergedInput [1, 0, 1] [[.take], [.reset, .take]]) = [.reset, .take, .take] := by decide
/-- 42_next_double.md R61: 0.25 is exponent 1021 and fraction 0. -/
theorem test_binary64_quarter : binary64Value 0x3FD0000000000000#64 = some (1 / 4) := by
  rw [binary64Value, if_neg (by decide), if_neg (by decide), if_neg (by decide),
    show (exponentField 0x3FD0000000000000#64).toNat = 1021 by decide,
    show (fractionField 0x3FD0000000000000#64).toNat = 0 by decide]
  norm_num

/-! ### Witnesses: the hypotheses of each obligation can be met, at the ends of their ranges -/

/-- A coherent state with two responses waiting, the older one an error made before the first `INIT`. -/
def waitingState : State :=
  { State.reset with words := wordsOne, seeded := true, pending := [⟨⟨true, 0#64⟩, false⟩, ⟨⟨false, 0#64⟩, true⟩] }

/-- Pins and choices at an edge. -/
def pins (rst valid ready : Bool) : PinsIn := ⟨rst, valid, 0b00#2, 0#64, ready⟩
def choice (ready valid : Bool) : EdgeChoice := ⟨ready, valid, false, ⟨true, 7#64⟩⟩

theorem witness_DecodeEncodeAgree : (Instr.init 0xFFFFFFFFFFFFFFFF#64).wellFormed = true := by decide
theorem witness_OperandBitsIgnored : (0b00#2 ≠ 0b01#2) ∧ (0b11#2 ≠ 0b01#2) := by decide
theorem witness_EveryCommandAnswersOnce : (seededState wordsOne).seeded = true ∧ State.reset.seeded = false := by decide
theorem witness_CommandFrame : (∃ t, exec .nop (seededState wordsOne) = .next t) ∧ ∃ t, exec .next State.reset = .next t :=
  ⟨⟨_, rfl⟩, ⟨_, rfl⟩⟩
theorem witness_StepRunsTheNextEvent :
    (presentCommand 0#66 State.reset).input = .command 0#66 :: [] ∧ decode 0#66 = .nop
      ∧ ({ State.reset with input := [.take] } : State).input = .take :: []
      ∧ ({ State.reset with input := [.reset] } : State).input = .reset :: [] ∧ State.reset.input = [] := by decide
theorem witness_RunIsTheTransactionFunction : noReset [.command 0x20000000000000000#66, .take] = true := by decide
theorem witness_DeliveryTakesTheOldest : State.reset.pending = []
    ∧ waitingState.pending = ⟨⟨true, 0#64⟩, false⟩ :: [⟨⟨false, 0#64⟩, true⟩] := by decide
theorem waitingState_coherent : PortsCoherent waitingState := by unfold PortsCoherent; decide
theorem witness_StepKeepsPortsCoherent : PortsCoherent waitingState ∧ ∃ t, step waitingState = .next t :=
  ⟨waitingState_coherent, _, rfl⟩
theorem witness_SeededPinShowsOldOrNew : PortsCoherent waitingState ∧ PortsCoherent State.reset
    ∧ State.reset.seeded = false ∧ State.reset.pending = [] :=
  ⟨waitingState_coherent, by unfold PortsCoherent; decide, rfl, rfl⟩
theorem witness_EdgeHandshakes_reset : (pins true true true).rst = true := by decide
theorem witness_EdgeHandshakes_accept : (pins false true false).rst = false ∧ (pins false true false).cmdValid = true
    ∧ (choice true true).cmdReady = true ∧ ((choice true true).rspValid && (pins false true false).rspReady) = false := by decide
theorem witness_EdgeHandshakes_deliver : (pins false false true).rst = false
    ∧ ((pins false false true).cmdValid && (choice true true).cmdReady) = false ∧ (choice true true).rspValid = true
    ∧ (pins false false true).rspReady = true := by decide
theorem witness_EdgeHandshakes_both : (pins false true true).rst = false ∧ (pins false true true).cmdValid = true
    ∧ (choice true true).cmdReady = true ∧ (choice true true).rspValid = true ∧ (pins false true true).rspReady = true
    ∧ ∃ t, exec (decode ((pins false true true).cmdOp ++ (pins false true true).cmdSeed)) State.reset = .next t :=
  ⟨rfl, rfl, rfl, rfl, rfl, _, rfl⟩
theorem witness_EdgeHandshakes_neither : (pins false true true).rst = false
    ∧ ((pins false true true).cmdValid && (choice false false).cmdReady) = false
    ∧ ((choice false false).rspValid && (pins false true true).rspReady) = false := by decide
theorem witness_PresentedResponseIsTheOldest : (pinsOut (choice true true) waitingState).rspValid = true := by decide
/-- Between the two presentations stands an edge at which `rsp_valid` drops and a command is accepted. -/
theorem witness_UndeliveredResponseIsHeld : ∃ s₁ s₂ s₃ : State,
    (pins false true false).rst = false ∧ settle (pins false true false) (choice true true) waitingState = .next s₁
    ∧ (pinsOut (choice true true) s₁).rspValid = true ∧ (pins false true false).rspReady = false
    ∧ (∀ e ∈ [(pins false true true, choice true false)], e.1.rst = false ∧ (e.2.rspValid && e.1.rspReady) = false)
    ∧ runEdges [(pins false true false, choice true true), (pins false true true, choice true false)] waitingState = .next s₂
    ∧ settle (pins false true true) (choice true true) s₂ = .next s₃ ∧ (pinsOut (choice true true) s₃).rspValid = true :=
  ⟨_, _, _, rfl, rfl, rfl, rfl, by decide, rfl, rfl, rfl⟩
theorem witness_AcceptanceAndDeliveryCommute : waitingState.pending ≠ [] := by decide
theorem witness_SeededWrittenByInitAndReset : (∃ t, exec (.init 1#64) State.reset = .next t)
    ∧ State.reset.seeded = false ∧ (∃ t, exec .nextd State.reset = .next t) ∧ advances (.init 1#64) = false
    ∧ ∃ t', exec (.init 1#64) { State.reset with seeded := true } = .next t' :=
  ⟨⟨_, rfl⟩, rfl, ⟨_, rfl⟩, rfl, _, rfl⟩
theorem witness_StatusWordIsTheFlag : isInit .next = false ∧ ∃ t, exec .next State.reset = .next t := ⟨rfl, _, rfl⟩
theorem witness_ResetState : ({ waitingState with input := [.reset, .take] } : State).input = .reset :: [.take] := by decide
theorem witness_UnseededWordsUnobservable : HostSame State.reset { State.reset with words := wordsOne }
    ∧ State.reset ≠ { State.reset with words := wordsOne } :=
  ⟨⟨rfl, rfl, rfl, rfl, rfl, rfl, fun h => absurd h (by decide)⟩, by decide⟩
theorem witness_BringUpIsOneInit : State.reset.seeded = false ∧ ([Instr.next, .nop, .nextd].all fun c => !isInit c) = true
    ∧ (seededState Words.zero).seeded = true := by decide
theorem witness_OnlySeedZeroIsAllZero : (1#64 : Word) ≠ 0#64 := by decide
theorem witness_InitStatesAreMixChains : (1#64 : Word) ≠ 2#64 := by decide
theorem witness_PrimitivesWrap : 0 ≤ 63 ∧ 63 ≤ 63 := by decide
theorem witness_RotlRotates : (1 ≤ 1 ∧ 1 ≤ 63) ∧ (1 ≤ 63 ∧ 63 ≤ 63) ∧ (0 < 64 ∧ 63 < 64) := by decide
theorem witness_NextStepsInSequence : (seededState wordsFortyTwo).seeded = true ∧ State.reset.seeded = false := by decide
theorem witness_StepLeavesRotatedWord : advances .next = true ∧ advances .nextd = true ∧ (seededState wordsOne).seeded = true := by
  decide
/-- V-H8 and V-H9 share a successor. -/
theorem witness_StepCollisionsExactly :
    nextWords ⟨0x5#64, 0x6#64, 0x7#64, 0x1234#64⟩ = nextWords ⟨0xFA#64, 0x6#64, 0xF8#64, 0x12CB#64⟩ := by decide
/-- V-H7 falls into the all-zero state. -/
theorem witness_ZeroStatePredecessors :
    nextWords ⟨0xDEADBEEF12345678#64, 0#64, 0xDEADBEEF12345678#64, 0xDEADBEEF12345678#64⟩ = ⟨0, 0, 0, 0⟩ := by decide
theorem witness_SeedZeroStreamIsDead : ([Instr.next, .nextd, .nop].all fun c => !isInit c) = true := by decide
theorem witness_OutputIsBijectiveInSecondWord : output ⟨1#64, 2#64, 3#64, 4#64⟩ = output ⟨0#64, 2#64, 0#64, 0#64⟩ := by decide
theorem witness_NextdReportsTheSameStep : (seededState wordsOne).seeded = true ∧ State.reset.seeded = false := by decide
theorem witness_DoubleRange : (0x7FF#64 : Word).toNat < 2 ^ 11 ∧ 2 ^ 11 ≤ (0x800#64 : Word).toNat
    ∧ 2 ^ 11 ≤ (0xFFFFFFFFFFFFFFFF#64 : Word).toNat := by decide
theorem witness_NopDoesNothing : ∃ t u v, exec .nop State.reset = .next t ∧ exec .next t = .next u
    ∧ exec .next State.reset = .next v := ⟨_, _, _, rfl, rfl, rfl⟩
theorem witness_StreamIsSeedAndCount : ([Instr.nextd, .nop, .next].all fun c => !isInit c) = true := by decide
theorem witness_NotSeededIsPrecise : State.reset.seeded = false
    ∧ ∃ t, exec .nextd State.reset = .next t ∧ t.pending = State.reset.pending ++ [⟨⟨true, 0#64⟩, t.seeded⟩] :=
  ⟨rfl, _, rfl, rfl⟩
theorem witness_NotSeededIsNotSticky : State.reset.seeded = false ∧ advances .next = true
    ∧ ∃ t u v w x y z, exec .next State.reset = .next t ∧ exec (.init 1#64) t = .next u
      ∧ exec (.init 1#64) State.reset = .next v ∧ exec .nop t = .next w ∧ exec .nop State.reset = .next x
      ∧ exec .nextd t = .next y ∧ exec .nextd State.reset = .next z ∧ isInit (.init 1#64) = true ∧ advances .nextd = true :=
  ⟨rfl, rfl, _, _, _, _, _, _, _, rfl, rfl, rfl, rfl, rfl, rfl, rfl, rfl, rfl⟩
theorem witness_ProgramsConcatenate : (assemble "INIT 1\n".toList).toOption = some [.command 0x10000000000000001#66]
    ∧ (assemble "NEXT\nNEXTD\n".toList).toOption = some [.command 0x20000000000000000#66, .command 0x30000000000000000#66] := by
  decide
/-- Sixteen upper-case digits of the spec's style, padded with zeros; 17 digits; the first decimal out of range. -/
theorem witness_EverySeedHasItsLiterals :
    "000000000000002A".toList.map Char.toLower = List.replicate 14 '0' ++ Nat.toDigits 16 (42#64 : Word).toNat
    ∧ "000000000000002A".toList.length ≤ 16 ∧ ([] : List Char).length = 0 ∧ 16 < (List.replicate 17 '0').length
    ∧ 18446744073709551615 < 18446744073709551616 := by decide
theorem witness_StepHasItsClosedForm : advances .next = true ∧ advances .nextd = true ∧ (seededState wordsOne).seeded = true := by
  decide

end Sys2Proof.Tests
end

section
/-! SUPPORT. The flag `seeded` (10_state.md R11): which commands write it, what an unseeded block answers, and which commands do not
read it. -/

namespace Sys2Proof.Proofs

open Sys2Proof Sys2Proof.Machine Sys2Proof.Laws

/-- `INIT` is the one command that writes the flag. -/
theorem exec_seeded {i : Instr} {s t : State} (h : exec i s = .next t) : t.seeded = (s.seeded || isInit i) := by
  obtain ⟨rfl, rfl⟩ | ⟨seed, rfl, rfl⟩ | ⟨rfl, -, rfl⟩ | ⟨rfl, -, rfl⟩ | ⟨rfl | rfl, -, rfl⟩ := exec_cases h
    <;> simp [isInit]

/-- On an unseeded block a command that advances the state raises the one exception (60_exceptions.md R71). -/
theorem exec_advances_unseeded {i : Instr} {s : State} (ha : advances i = true) (hs : s.seeded = false) :
    exec i s = .next (raise .notSeeded s) := by
  rw [raise_eq]
  cases i with
  | nop => cases ha
  | init _ => cases ha
  | next => exact exec_next_unseeded hs
  | nextd => exact exec_nextd_unseeded hs

/-- A command that does not advance the state does not read the flag: with the flag set to anything it leaves the same words and
the same responses. -/
theorem exec_ignores_seeded {i : Instr} {s t t' : State} {b : Bool} (ha : advances i = false)
    (h : exec i s = .next t) (h' : exec i { s with seeded := b } = .next t') :
    t'.words = t.words ∧ t'.pending.map Pending.rsp = t.pending.map Pending.rsp := by
  cases i with
  | nop =>
    rw [exec_nop] at h h'
    cases h
    cases h'
    simp
  | init seed =>
    rw [exec_init] at h h'
    cases h
    cases h'
    simp
  | next => cases ha
  | nextd => cases ha

/-- Settles O19: the writers of the flag by cases on what a command, a delivery and a reset can do, and its readers by what an
advancing and a non-advancing command answer. -/
theorem seededWrittenByInitAndReset : Obligations.SeededWrittenByInitAndReset := by
  refine ⟨rfl, fun _ _ _ => exec_seeded, fun s => ⟨deliver_seeded s, applyReset_seeded s⟩, ?_,
    fun _ _ _ _ _ => exec_ignores_seeded⟩
  intro s t hs h
  have raises (i : Instr) (ha : advances i = true) (h : exec i s = .next t) : t = raise .notSeeded s := by
    rw [exec_advances_unseeded ha hs] at h
    cases h
    rfl
  exact h.elim (raises .next rfl) (raises .nextd rfl)

end Sys2Proof.Proofs
end

section
/-! SUPPORT. The opcode map (30_encoding.md R31), by field and by mask and match, and what a command word's seed bits decide (R34). -/

namespace Sys2Proof.Proofs

open Sys2Proof Sys2Proof.Machine Sys2Proof.Laws

/-- A command word is its opcode over its seed (30_encoding.md R30). -/
theorem commandWord_fields (cw : CommandWord) : commandWord (opField cw) (seedField cw) = cw :=
  BitVec.extractLsb'_append_extractLsb'

/-- The four arms of the decoder, each with the opcode that selects it. -/
theorem decode_cases (cw : CommandWord) :
    (opField cw = 0b00#2 ∧ decode cw = .nop) ∨ (opField cw = 0b01#2 ∧ decode cw = .init (seedField cw)) ∨
    (opField cw = 0b10#2 ∧ decode cw = .next) ∨ (opField cw = 0b11#2 ∧ decode cw = .nextd) := by
  unfold decode
  match opField cw with
  | 0b00#2 => exact .inl ⟨rfl, rfl⟩
  | 0b01#2 => exact .inr (.inl ⟨rfl, rfl⟩)
  | 0b10#2 => exact .inr (.inr (.inl ⟨rfl, rfl⟩))
  | 0b11#2 => exact .inr (.inr (.inr ⟨rfl, rfl⟩))

/-- The opcode map by field: each opcode is the one its command decodes from. -/
theorem opcode_iff_decode (cw : CommandWord) :
    (opField cw = 0b00#2 ↔ decode cw = .nop) ∧ (opField cw = 0b01#2 ↔ decode cw = .init (seedField cw)) ∧
    (opField cw = 0b10#2 ↔ decode cw = .next) ∧ (opField cw = 0b11#2 ↔ decode cw = .nextd) := by
  obtain ⟨ho, hd⟩ | ⟨ho, hd⟩ | ⟨ho, hd⟩ | ⟨ho, hd⟩ := decode_cases cw <;> simp [ho, hd]

/-- A row's mask and match select its opcode: the masked word is the opcode over zeros. -/
theorem masked_eq_iff (cw : CommandWord) (op : BitVec 2) :
    cw &&& 0x30000000000000000#66 = commandWord op 0#64 ↔ opField cw = op := by
  have hmask : cw &&& 0x30000000000000000#66 = commandWord (opField cw) 0#64 := by
    rw [commandWord, ← TableRow.masked (opField cw) (seedField cw), commandWord_fields]
  rw [hmask]
  exact ⟨fun h => by simpa only [opField_commandWord] using congrArg opField h, fun h => by rw [h]⟩

/-- Settles O2: the four arms of the decoder by field; each row's match is its opcode over zeros, so its mask and match say what
its field says. -/
theorem opcodeMapByFieldAndMask : Obligations.OpcodeMapByFieldAndMask := by
  intro cw
  obtain ⟨nop, init, next, nextd⟩ := opcode_iff_decode cw
  have masked := masked_eq_iff cw
  exact ⟨nop, init, next, nextd,
    (masked 0b00#2).trans nop, (masked 0b01#2).trans init, (masked 0b10#2).trans next, (masked 0b11#2).trans nextd⟩

/-- Only `INIT` reads the seed bits: words with one opcode other than 01 decode alike. -/
theorem decode_eq_of_opField_eq {v w : CommandWord} (h : opField v = opField w) (hop : opField v ≠ 0b01#2) :
    decode v = decode w := by
  obtain ⟨nop, -, next, nextd⟩ := opcode_iff_decode w
  rw [← h] at nop next nextd
  obtain ⟨ho, hd⟩ | ⟨ho, -⟩ | ⟨ho, hd⟩ | ⟨ho, hd⟩ := decode_cases v
  · rw [hd, nop.mp ho]
  · exact absurd ho hop
  · rw [hd, next.mp ho]
  · rw [hd, nextd.mp ho]

end Sys2Proof.Proofs
end

section
/-! SUPPORT. Every command as the pure function of 30_encoding.md R38: it always completes, with one response (R33), and leaves all
but the words, the flag and the waiting responses as they were. -/

namespace Sys2Proof.Proofs

open Sys2Proof Sys2Proof.Machine Sys2Proof.Laws

/-- The statements of the step in sequence come to the closed form (41_next_integer.md R51). -/
theorem nextWords_eq_closedNext (w : Words) : nextWords w = closedNext w := by
  have h0 : w.s0 ^^^ (w.s3 ^^^ w.s1) = w.s0 ^^^ w.s1 ^^^ w.s3 := by ac_rfl
  have h1 : w.s1 ^^^ (w.s0 ^^^ w.s2) = w.s0 ^^^ w.s1 ^^^ w.s2 := by ac_rfl
  have h2 : w.s2 ^^^ w.s0 = w.s0 ^^^ w.s2 := BitVec.xor_comm w.s2 w.s0
  simp only [nextWords, closedNext, setWord, getWord, stepShift, stepRot, stepRotSrc, h0, h1, h2]

/-- The state in which a command completes: the words and flag of the pure function, its response the last of those that wait, and
all else as it was. -/
def answered (result : (Words × Bool) × Response) (s : State) : State :=
  { s with words := result.1.1, seeded := result.1.2, pending := s.pending ++ [⟨result.2, result.1.2⟩] }

/-- Every command, in every state, is the pure function of the rule. -/
theorem exec_eq_answered (i : Instr) (s : State) : exec i s = .next (answered (transact (s.words, s.seeded) i) s) := by
  obtain ⟨words, seeded, input, pending, delivered, shown, resets⟩ := s
  cases i with
  | nop => rfl
  | init seed => rfl
  | next =>
    cases seeded with
    | true => rw [exec_next_seeded rfl, nextWords_eq_closedNext]; rfl
    | false => rw [exec_next_unseeded rfl]; rfl
  | nextd =>
    cases seeded with
    | true => rw [exec_nextd_seeded rfl, nextWords_eq_closedNext]; rfl
    | false => rw [exec_nextd_unseeded rfl]; rfl

theorem exec_eq_next_iff {i : Instr} {s t : State} :
    exec i s = .next t ↔ t = answered (transact (s.words, s.seeded) i) s := by
  rw [exec_eq_answered, Host.Outcome.next.injEq, eq_comm]

theorem responseWord_err (r : Response) : (responseWord r).getLsbD 64 = r.err := by
  rw [responseWord, BitVec.getLsbD_append, if_neg (by decide)]
  simp

theorem responseWord_data (r : Response) : (responseWord r).extractLsb' 0 64 = r.data :=
  BitVec.extractLsb'_append_eq_right

/-- Settles O5: the response is that of the pure function, whose equations are the rule's table. -/
theorem everyCommandAnswersOnce : Obligations.EveryCommandAnswersOnce := by
  refine ⟨fun i s => ⟨_, (transact (s.words, s.seeded) i).2, exec_eq_answered i s, rfl, rfl, ?_, ?_, ?_, ?_, ?_⟩,
    fun r => ⟨responseWord_err r, responseWord_data r⟩⟩
  · rintro rfl
    rfl
  · rintro seed rfl
    rfl
  · rintro rfl hs
    simp [transact, hs]
  · rintro rfl hs
    simp [transact, hs]
  · rintro (rfl | rfl) hs <;> simp [transact, hs]

/-- No event stops the block, in any state. -/
theorem handleEvent_total (e : Event) (s : State) : ∃ t, handleEvent e s = .next t := by
  cases e with
  | command cw => exact ⟨_, exec_eq_answered (decode cw) s⟩
  | take => exact ⟨_, rfl⟩
  | reset => exact ⟨_, rfl⟩

/-- The assembler emits zeros in the ignored bits (30_encoding.md R36). -/
theorem seedField_encode {i : Instr} (h : isInit i = false) : seedField (encode i) = 0#64 := by
  cases i with
  | nop => rw [encode, seedField_commandWord]
  | init _ => cases h
  | next => rw [encode, seedField_commandWord]
  | nextd => rw [encode, seedField_commandWord]

/-- Settles O4: the seed bits of a word whose opcode is not 01 do not reach the decoded command, and every command completes. -/
theorem operandBitsIgnored : Obligations.OperandBitsIgnored := by
  refine ⟨fun op v w s hop => ?_, fun cw s => handleEvent_total (.command cw) s,
    seedField_encode rfl, seedField_encode rfl, seedField_encode rfl⟩
  have hv := opField_commandWord op v
  have hw := opField_commandWord op w
  have hdecode : decode (commandWord op v) = decode (commandWord op w) :=
    decode_eq_of_opField_eq (hv.trans hw.symm) (hv.trans_ne hop)
  simp only [handleEvent, hdecode]

end Sys2Proof.Proofs
end

section
/-! SUPPORT. Runs (30_encoding.md R38): a run of the machine handles the events of its stream one after the other, and without a reset
they are the pure function on the commands among them. -/

namespace Sys2Proof.Proofs

open Sys2Proof Sys2Proof.Machine Sys2Proof.Laws

theorem transactAll_cons (σ : Words × Bool) (c : Instr) (cs : List Instr) :
    transactAll σ (c :: cs) =
      ((transactAll (transact σ c).1 cs).1, (transact σ c).2 :: (transactAll (transact σ c).1 cs).2) := rfl

/-- A delivery moves a response from those that wait to those delivered, and drops none. -/
@[simp] theorem responses_deliver (s : State) : responses (deliver s) = responses s := by
  cases h : s.pending with
  | nil => rw [deliver_none h]
  | cons p rest => simp [deliver_some h, responses, h]

/-- A command produces the response of the pure function, after those produced before it. -/
theorem responses_exec {i : Instr} {s t : State} (h : exec i s = .next t) :
    responses t = responses s ++ [(transact (s.words, s.seeded) i).2] := by
  rw [exec_eq_next_iff.mp h]
  simp [responses, answered]

/-- No event reads or writes the events still to come: with another stream behind it, it does the same. -/
theorem handleEvent_withInput {e : Event} {s t : State} (input : List Event) (h : handleEvent e s = .next t) :
    handleEvent e { s with input := input } = .next { t with input := input } := by
  obtain ⟨cw, rfl, h⟩ | ⟨rfl, rfl⟩ | ⟨rfl, rfl⟩ := handleEvent_cases h
  · rw [handleEvent, exec_eq_answered, exec_eq_next_iff.mp h]
    rfl
  · obtain ⟨words, seeded, -, pending, delivered, shown, resets⟩ := s
    cases pending with
    | nil => rfl
    | cons p rest => rfl
  · rfl

theorem handleEvent_input {e : Event} {s t : State} (h : handleEvent e s = .next t) : t.input = s.input := by
  obtain ⟨cw, -, h⟩ | ⟨-, rfl⟩ | ⟨-, rfl⟩ := handleEvent_cases h
  · rw [exec_eq_next_iff.mp h]
    rfl
  · exact deliver_input s
  · exact applyReset_input s

/-- A step handles the event at the head of the stream. -/
theorem step_cons {e : Event} {rest : List Event} {s : State} (h : s.input = e :: rest) :
    step s = handleEvent e { s with input := rest } := by
  simp only [step, consumeInput, h]

theorem run_succ_next {s t : State} (h : step s = .next t) (n : Nat) :
    Host.Core.run Sys2Proof.core (n + 1) s = Host.Core.run Sys2Proof.core n t := by
  have hcore : Sys2Proof.core.step s = .next t := h
  simp only [Host.Core.run, hcore]

/-- A machine whose stream begins with the given events handles exactly those, in order, in as many steps. -/
theorem run_eq_runEvents {es rest : List Event} {s : State} (h : s.input = es ++ rest) :
    Host.Core.run Sys2Proof.core es.length s = runEvents es { s with input := rest } := by
  induction es generalizing s with
  | nil =>
    have hrest : s.input = rest := h
    rw [← hrest]
    rfl
  | cons e es ih =>
    obtain ⟨t, ht⟩ := handleEvent_total e { s with input := es ++ rest }
    have hstep : step s = .next t := (step_cons h).trans ht
    have hrest := handleEvent_withInput rest ht
    rw [runEvents_cons_next hrest, ← ih (handleEvent_input ht)]
    exact run_succ_next hstep es.length

theorem runEvents_total (es : List Event) (s : State) : ∃ t, runEvents es s = .next t := by
  induction es generalizing s with
  | nil => exact ⟨s, rfl⟩
  | cons e es ih =>
    obtain ⟨u, hu⟩ := handleEvent_total e s
    rw [runEvents_cons_next hu]
    exact ih u

theorem runEvents_input {es : List Event} {s t : State} (h : runEvents es s = .next t) : t.input = s.input := by
  induction es generalizing s with
  | nil =>
    cases h
    rfl
  | cons e es ih =>
    obtain ⟨u, hu⟩ := handleEvent_total e s
    rw [runEvents_cons_next hu] at h
    exact (ih h).trans (handleEvent_input hu)

/-- Events without a reset leave the words and the flag of the pure function on their commands, and produce its responses, in
order, after those produced before. -/
theorem runEvents_transactAll {es : List Event} {s t : State} (hr : noReset es = true) (h : runEvents es s = .next t) :
    t.resets = s.resets ∧ (t.words, t.seeded) = (transactAll (s.words, s.seeded) (commandsOf es)).1
      ∧ responses t = responses s ++ (transactAll (s.words, s.seeded) (commandsOf es)).2 := by
  induction es generalizing s with
  | nil =>
    cases h
    simp [commandsOf, transactAll]
  | cons e es ih =>
    cases e with
    | command cw =>
      have hu : handleEvent (.command cw) s = _ := exec_eq_answered (decode cw) s
      rw [runEvents_cons_next hu] at h
      obtain ⟨hresets, hstate, hrsp⟩ := ih hr h
      rw [responses_exec hu, List.append_assoc] at hrsp
      rw [commandsOf, transactAll_cons]
      exact ⟨hresets, hstate, hrsp⟩
    | take =>
      have hu : handleEvent .take s = .next (deliver s) := rfl
      rw [runEvents_cons_next hu] at h
      simpa only [commandsOf, deliver_words, deliver_seeded, deliver_resets, responses_deliver] using ih hr h
    | reset => cases hr

/-- Settles O9: the run handles its events in order, which come to the pure function on their commands. -/
theorem runIsTheTransactionFunction : Obligations.RunIsTheTransactionFunction := by
  intro es rest s hr
  obtain ⟨t, ht⟩ := runEvents_total es { s with input := rest }
  have hpure := runEvents_transactAll hr ht
  exact ⟨t, (run_eq_runEvents rfl).trans ht, runEvents_input ht, hpure⟩

end Sys2Proof.Proofs
end

section
/-! SUPPORT. The seed expander (40_seed_expander.md): `mix` as arithmetic on numbers (R40), and what `INIT` leaves (R41). -/

namespace Sys2Proof.Proofs

open Sys2Proof Sys2Proof.Machine Sys2Proof.Laws

theorem toNat_shr (x : Word) (n : Nat) (h : n ≤ 63) : (shr x n h).toNat = x.toNat / 2 ^ n := by
  rw [shr, BitVec.toNat_ushiftRight, Nat.shiftRight_eq_div_pow]

theorem toNat_mul64 (x y : Word) : (mul64 x y).toNat = x.toNat * y.toNat % 2 ^ 64 := BitVec.toNat_mul x y

/-- A stage that mixes a word with itself shifted right, as arithmetic on numbers. -/
theorem xor_shr_eq (x : Word) (n : Nat) (h : n ≤ 63) :
    x ^^^ shr x n h = x ^^^ BitVec.ofNat 64 (x.toNat / 2 ^ n) := by
  rw [← toNat_shr x n h, BitVec.ofNat_toNat, BitVec.setWidth_eq]

/-- Settles O25: each stage of `mix` is one shift and exclusive-or, or one product, of the stage before. -/
theorem mixIsTheFiveStageChain : Obligations.MixIsTheFiveStageChain := by
  refine ⟨fun z => ?_, by decide⟩
  exact ⟨_, _, _, _, xor_shr_eq z mixShiftA _, toNat_mul64 _ mixMulA, xor_shr_eq _ mixShiftB _,
    toNat_mul64 _ mixMulB, xor_shr_eq _ mixShiftC _⟩

theorem toNat_commandWord (op : BitVec 2) (seed : Word) :
    (commandWord op seed).toNat = op.toNat * 2 ^ 64 + seed.toNat := by
  rw [commandWord, BitVec.toNat_append, ← Nat.shiftLeft_add_eq_or_of_lt seed.isLt, Nat.shiftLeft_eq]

theorem decode_commandWord_init (seed : Word) : decode (commandWord 0b01#2 seed) = .init seed := by
  obtain ⟨-, init, -, -⟩ := opcode_iff_decode (commandWord 0b01#2 seed)
  rw [init.mp (opField_commandWord _ _), seedField_commandWord]

/-- The command word of `INIT` as the number `0x1 ∥ seed`. -/
theorem ofNat_init_word (seed : Word) :
    BitVec.ofNat 66 (0x10000000000000000 + seed.toNat) = commandWord 0b01#2 seed := by
  have hword : (commandWord 0b01#2 seed).toNat = 0x10000000000000000 + seed.toNat := toNat_commandWord 0b01#2 seed
  rw [← hword, BitVec.ofNat_toNat, BitVec.setWidth_eq]

/-- Settles O27: the word is the opcode 01 over the seed, and the pure function gives `INIT` words, flag and response that depend
on the seed alone. -/
theorem initExpandsTheSeed : Obligations.InitExpandsTheSeed := by
  refine ⟨fun seed s => ⟨?_, exec_eq_answered (.init seed) s⟩, by decide⟩
  rw [ofNat_init_word, decode_commandWord_init]

end Sys2Proof.Proofs
end

section
/-! SUPPORT. The integer output (41_next_integer.md): the step's statements in sequence, and the command `NEXT` (R51). -/

namespace Sys2Proof.Proofs

open Sys2Proof Sys2Proof.Machine Sys2Proof.Laws

/-- Replacing the words and answering touches only the words and the waiting responses; in a seeded state the response carries the
set flag. -/
theorem respond_writeWords_seeded {s : State} (h : s.seeded = true) (err : Bool) (data : Word) (w : Words) :
    respond err data (writeWords w s) = { s with words := w, pending := s.pending ++ [⟨⟨err, data⟩, true⟩] } := by
  rw [respond, writeWords_pending, writeWords_seeded, h, writeWords]

/-- Answering touches only the waiting responses; in an unseeded state the response carries the clear flag. -/
theorem respond_unseeded {s : State} (h : s.seeded = false) (err : Bool) (data : Word) :
    respond err data s = { s with pending := s.pending ++ [⟨⟨err, data⟩, false⟩] } := by
  rw [respond, h]

/-- The opcode 10 over zeros is `NEXT` (30_encoding.md R31). -/
theorem decode_next_word : decode 0x20000000000000000#66 = .next := by
  obtain ⟨-, -, next, -⟩ := opcode_iff_decode 0x20000000000000000#66
  exact next.mp (by decide)

/-- Settles O33: a seeded `NEXT` writes the words of the step, whose definition is the rule's statements one after another, and
answers the output of the old `s[1]`; an unseeded one only answers the error. -/
theorem nextStepsInSequence : Obligations.NextStepsInSequence := by
  refine ⟨fun s h => ?seeded, fun s h => ?unseeded, decode_next_word, by decide, by decide⟩
  case seeded =>
    rw [exec_next_seeded h, respond_writeWords_seeded h]
    rfl
  case unseeded => rw [exec_next_unseeded h, respond_unseeded h]

end Sys2Proof.Proofs
end

section
/-! SUPPORT. The double output (42_next_double.md): the bits of `u2d`, read by the layout of R61, are exactly `m * 2^-53`, and the
command `NEXTD` takes the step of `NEXT` (R60). -/

namespace Sys2Proof.Proofs

open Sys2Proof Sys2Proof.Machine Sys2Proof.Laws

/-! The fields of a pattern put together from sign, exponent and fraction (42_next_double.md R61). -/

theorem signBit_fields (sign : BitVec 1) (e : BitVec 11) (f : BitVec 52) : signBit ((sign ++ e) ++ f) = sign := by
  rw [signBit, BitVec.append_assoc]
  exact BitVec.extractLsb'_append_eq_left

theorem exponentField_fields (sign : BitVec 1) (e : BitVec 11) (f : BitVec 52) :
    exponentField ((sign ++ e) ++ f) = e := by
  rw [exponentField, BitVec.extractLsb'_append_eq_of_le (by decide)]
  exact BitVec.extractLsb'_append_eq_right

theorem fractionField_fields (sign : BitVec 1) (e : BitVec 11) (f : BitVec 52) :
    fractionField ((sign ++ e) ++ f) = f :=
  BitVec.extractLsb'_append_eq_right

/-- A positive normal pattern has the value `1.fraction * 2^(exponent - 1023)`. -/
theorem binary64Value_normal (e : BitVec 11) (f : BitVec 52) (hpos : 0 < e.toNat) (hfin : e.toNat < 2047) :
    binary64Value ((0#1 ++ e) ++ f) = some ((1 + f.toNat / (2 : ℚ) ^ 52) * (2 : ℚ) ^ (e.toNat - 1023 : ℤ)) := by
  have hexp := exponentField_fields 0#1 e f
  have hzero : ((0#1 ++ e) ++ f : Word) ≠ 0#64 := by
    intro h
    rw [h] at hexp
    rw [← hexp] at hpos
    exact absurd hpos (by decide)
  rw [binary64Value, if_neg hzero, hexp, if_neg (by omega), signBit_fields, if_neg (by decide), fractionField_fields,
    one_mul]

/-- An integer whose leading 1 is bit p, with the bits below it left-aligned in 52, under the exponent `970 + p`. -/
theorem leadingOne_scaled {n p : ℕ} (hle : 2 ^ p ≤ n) (hp : p ≤ 52) :
    (1 + ((n - 2 ^ p) * 2 ^ (52 - p) : ℕ) / (2 : ℚ) ^ 52) * (2 : ℚ) ^ ((970 + p : ℕ) - 1023 : ℤ) = n / 2 ^ 53 := by
  have hsplit : (2 : ℚ) ^ 52 = 2 ^ p * 2 ^ (52 - p) := by rw [← pow_add, Nat.add_sub_cancel' hp]
  have hscale : (2 : ℚ) ^ ((970 + p : ℕ) - 1023 : ℤ) = 2 ^ p / 2 ^ 53 := by
    rw [show ((970 + p : ℕ) - 1023 : ℤ) = (p : ℤ) - (53 : ℕ) by omega, zpow_sub₀ two_ne_zero, zpow_natCast, zpow_natCast]
  have hfraction : (((n - 2 ^ p) * 2 ^ (52 - p) : ℕ) : ℚ) / 2 ^ 52 = (n - 2 ^ p) / 2 ^ p := by
    rw [hsplit, Nat.cast_mul, Nat.cast_sub hle]
    push_cast
    exact mul_div_mul_right _ _ (by positivity)
  rw [hfraction, hscale]
  field_simp
  ring

/-- The double of m is exactly `m * 2^-53` (42_next_double.md R61). -/
theorem binary64Value_u2d (m : BitVec 53) : binary64Value (u2d m) = some ((m.toNat : ℚ) / 2 ^ 53) := by
  by_cases hm : m = 0#53
  · subst hm
    simp [u2d, binary64Value]
  · have hne : m.toNat ≠ 0 := fun h => hm (BitVec.eq_of_toNat_eq h)
    have hle : 2 ^ Nat.log2 m.toNat ≤ m.toNat := Nat.log2_self_le hne
    have hlt : m.toNat < 2 ^ (Nat.log2 m.toNat + 1) := Nat.lt_log2_self
    have hp : Nat.log2 m.toNat < 53 := (Nat.log2_lt hne).mpr m.isLt
    rw [u2d, if_neg hm]
    generalize Nat.log2 m.toNat = p at hle hlt hp
    have hfrac : (m.toNat - 2 ^ p) * 2 ^ (52 - p) < 2 ^ 52 :=
      calc (m.toNat - 2 ^ p) * 2 ^ (52 - p)
        _ < 2 ^ p * 2 ^ (52 - p) := Nat.mul_lt_mul_of_pos_right (by omega) (by positivity)
        _ = 2 ^ 52 := by rw [← pow_add, Nat.add_sub_cancel' (by omega)]
    have hexp : (BitVec.ofNat 11 (970 + p)).toNat = 970 + p := Nat.mod_eq_of_lt (by omega)
    rw [binary64Value_normal _ _ (by omega) (by omega), hexp, BitVec.toNat_ofNat, Nat.mod_eq_of_lt hfrac,
      leadingOne_scaled hle (by omega)]

/-- The double of every m is in [0, 1). -/
theorem u2d_value_nonneg_lt_one (m : BitVec 53) : ∃ q : ℚ, binary64Value (u2d m) = some q ∧ 0 ≤ q ∧ q < 1 := by
  refine ⟨_, binary64Value_u2d m, by positivity, ?_⟩
  rw [div_lt_one (by positivity)]
  exact_mod_cast m.isLt

theorem toNat_topBits (r : Word) : (topBits r).toNat = r.toNat / 2 ^ 11 := by
  have hlt : (shr r dblShift).toNat < 2 ^ 53 := by
    rw [toNat_shr, dblShift]
    omega
  calc (topBits r).toNat
    _ = (shr r dblShift).toNat % 2 ^ 53 := BitVec.toNat_setWidth dblBits _
    _ = (shr r dblShift).toNat := Nat.mod_eq_of_lt hlt
    _ = r.toNat / 2 ^ 11 := toNat_shr r dblShift _

/-- The opcode 11 over zeros is `NEXTD` (30_encoding.md R31). -/
theorem decode_nextd_word : decode 0x30000000000000000#66 = .nextd := by
  obtain ⟨-, -, -, nextd⟩ := opcode_iff_decode 0x30000000000000000#66
  exact nextd.mp (by decide)

/-- Settles O40: `NEXT` and `NEXTD` in a seeded state write the words of one step and differ in the response alone; the double
answered is exactly its 53 bits over 2^53, so it is in [0, 1). -/
theorem nextdReportsTheSameStep : Obligations.NextdReportsTheSameStep := by
  refine ⟨fun s h => ⟨toNat_topBits _, u2d_value_nonneg_lt_one _, ?nextd, ?next⟩, fun s h => ?unseeded, decode_nextd_word,
    by decide⟩
  case nextd => rw [exec_nextd_seeded h, respond_writeWords_seeded h]
  case next => rw [exec_next_seeded h, respond_writeWords_seeded h]
  case unseeded => rw [exec_nextd_unseeded h, respond_unseeded h]

end Sys2Proof.Proofs
end

section
/-! SUPPORT. The idle command (43_nop.md R65): its words, and why a command after it does not see it. -/

namespace Sys2Proof.Proofs

open Sys2Proof Sys2Proof.Machine Sys2Proof.Laws

/-- The opcode 00 over any seed is `NOP` (30_encoding.md R31). -/
theorem decode_commandWord_nop (seed : Word) : decode (commandWord 0b00#2 seed) = .nop := by
  obtain ⟨nop, -, -, -⟩ := opcode_iff_decode (commandWord 0b00#2 seed)
  exact nop.mp (opField_commandWord _ _)

/-- A command reads the words and the flag alone: on states that agree on them it leaves the same words and flag and answers with
the same response, whatever responses wait. -/
theorem exec_depends_on_words_and_flag {i : Instr} {s t u v : State} (hw : t.words = s.words) (hf : t.seeded = s.seeded)
    (hu : exec i t = .next u) (hv : exec i s = .next v) :
    u.words = v.words ∧ u.seeded = v.seeded ∧ u.pending.getLast? = v.pending.getLast? := by
  rw [exec_eq_next_iff, hw, hf] at hu
  rw [exec_eq_next_iff] at hv
  subst hu hv
  refine ⟨rfl, rfl, ?_⟩
  simp only [answered, List.getLast?_concat]

/-- Settles O43: `NOP` only answers, so it leaves the words and the flag, which are all that the command after it reads. -/
theorem nopDoesNothing : Obligations.NopDoesNothing := by
  refine ⟨decode_commandWord_nop, by decide, exec_nop, fun i s t u v ht hu hv => ?_⟩
  rw [exec_nop] at ht
  cases ht
  exact exec_depends_on_words_and_flag (respond_words _ _ s) (respond_seeded _ _ s) hu hv

end Sys2Proof.Proofs
end

section
/-! SUPPORT. The one error (60_exceptions.md): which commands answer it (R71), what raising it leaves (R72), and why the command after
it does not see it (R73). -/

namespace Sys2Proof.Proofs

open Sys2Proof Sys2Proof.Machine Sys2Proof.Laws

/-- The pure function answers an error exactly on an advancing command without the flag (60_exceptions.md R71). -/
theorem transact_err_iff (σ : Words × Bool) (i : Instr) :
    (transact σ i).2.err = true ↔ (advances i = true ∧ σ.2 = false) := by
  obtain ⟨w, seeded⟩ := σ
  cases i with
  | nop => simp [transact, advances]
  | init _ => simp [transact, advances]
  | next => cases seeded <;> simp [transact, advances]
  | nextd => cases seeded <;> simp [transact, advances]

/-- The response a command adds to those that wait is that of the pure function. -/
theorem exec_added_response {i : Instr} {s t : State} {r : Response} {flag : Bool} (h : exec i s = .next t)
    (hr : t.pending = s.pending ++ [⟨r, flag⟩]) : r = (transact (s.words, s.seeded) i).2 := by
  rw [exec_eq_next_iff.mp h, answered, List.append_cancel_left_eq] at hr
  cases hr
  rfl

/-- Raising the error leaves every part of an unseeded state but for the one response (60_exceptions.md R72). -/
theorem raise_unseeded {s : State} (h : s.seeded = false) (e : Exception) :
    raise e s = { s with pending := s.pending ++ [⟨⟨true, 0#64⟩, false⟩] } := by
  rw [raise_eq, respond_unseeded h]

/-- Settles O45: an unseeded advancing command only raises, and the response of any command is that of the pure function. -/
theorem notSeededIsPrecise : Obligations.NotSeededIsPrecise := by
  refine ⟨rfl, fun s hs => ⟨?next, ?nextd⟩, fun i s t r h hr => ?err⟩
  case next => rw [exec_advances_unseeded rfl hs, raise_unseeded hs]
  case nextd => rw [exec_advances_unseeded rfl hs, raise_unseeded hs]
  case err => rw [exec_added_response h hr, transact_err_iff]

/-- Settles O46: raising leaves the words and the flag, which are all that the next command reads; so that command meets an unseeded
block once more and answers as its own kind does there. -/
theorem notSeededIsNotSticky : Obligations.NotSeededIsNotSticky := by
  intro i j s t u v hs hi ht hu hv
  rw [exec_advances_unseeded hi hs] at ht
  cases ht
  have hunseeded : (raise .notSeeded s).seeded = false := (raise_seeded _ s).trans hs
  obtain ⟨hwords, hflag, hlast⟩ := exec_depends_on_words_and_flag (raise_words _ s) (raise_seeded _ s) hu hv
  refine ⟨hwords, hflag, hlast, fun hj => ?raises, fun hj => ?answers, fun hj => ?seeds⟩
  case raises =>
    rw [exec_advances_unseeded hj hunseeded] at hu
    cases hu
    rw [raise_pending, hunseeded]
  case answers =>
    rw [hj, exec_nop] at hu
    cases hu
    rw [respond_pending, hunseeded]
  case seeds =>
    cases j with
    | nop => cases hj
    | init seed =>
      rw [exec_init] at hu
      cases hu
      simp
    | next => cases hj
    | nextd => cases hj

end Sys2Proof.Proofs
end

section
/-! SUPPORT. Reset (70_reset_and_hazards.md R85): what the step that handles it leaves. -/

namespace Sys2Proof.Proofs

open Sys2Proof Sys2Proof.Machine Sys2Proof.Laws

/-- With a reset at the head of the stream, a step is the reset on the rest of it. -/
theorem step_reset {s : State} {rest : List Event} (h : s.input = .reset :: rest) :
    step s = .next (applyReset { s with input := rest }) := step_cons h

/-- Settles O21: the step is the reset itself, which clears the flag, drops the waiting responses and leaves the rest of the stream;
every command completes in the state it leaves, as in any other. -/
theorem resetState : Obligations.ResetState := by
  refine ⟨fun s rest h => ⟨applyReset { s with input := rest }, step_reset h, ?flag, ?waiting, ?stream, ?ready⟩, rfl, rfl⟩
  case flag => exact applyReset_seeded _
  case waiting => exact applyReset_pending _
  case stream => exact applyReset_input _
  case ready => exact fun i => ⟨_, exec_eq_answered i _⟩

end Sys2Proof.Proofs
end

section
/-! SUPPORT. Decode and encode agree, in both directions (30_encoding.md R31, R36), and the words of the spec's listings. -/

namespace Sys2Proof.Proofs

open Sys2Proof Sys2Proof.Machine Sys2Proof.Laws

/-- Decoding the word the assembler emits gives the command back. -/
@[simp] theorem decode_encode (i : Instr) : decode (encode i) = i := by
  cases i with
  | nop => exact decode_commandWord_nop 0#64
  | init seed => exact decode_commandWord_init seed
  | next => exact decode_next_word
  | nextd => exact decode_nextd_word

/-- Encoding a decoded word gives the word back for `INIT`, and else its opcode over zeros. -/
theorem encode_decode (cw : CommandWord) :
    encode (decode cw) = if isInit (decode cw) then cw else commandWord (opField cw) 0#64 := by
  obtain ⟨ho, hd⟩ | ⟨ho, hd⟩ | ⟨ho, hd⟩ | ⟨ho, hd⟩ := decode_cases cw
  · rw [hd, ho]
    rfl
  · have hword : encode (.init (seedField cw)) = cw := by rw [encode, ← ho, commandWord_fields]
    rw [hd, hword]
    rfl
  · rw [hd, ho]
    rfl
  · rw [hd, ho]
    rfl

/-- Settles O3: a command is read back from the opcode and seed of its word, and of a word the decoder drops the seed bits alone,
where the opcode is not 01. -/
theorem decodeEncodeAgree : Obligations.DecodeEncodeAgree :=
  ⟨fun i _ => decode_encode i, encode_decode⟩

/-- Settles O1: seven fixed words. -/
theorem specWordsDecode : Obligations.SpecWordsDecode := by
  unfold Obligations.SpecWordsDecode
  decide

end Sys2Proof.Proofs
end

section
/-! SUPPORT. What the pure function of a command leaves alone, and the frame of every command (10_state.md R10, R11). -/

namespace Sys2Proof.Proofs

open Sys2Proof Sys2Proof.Machine Sys2Proof.Laws

/-- A command other than `INIT` that does not advance the state, by its kind or for want of the flag, leaves words and flag. -/
theorem transact_keeps {σ : Words × Bool} {i : Instr} (hi : isInit i = false) (h : σ.2 = false ∨ advances i = false) :
    (transact σ i).1 = σ := by
  obtain ⟨w, seeded⟩ := σ
  cases i with
  | nop => rfl
  | init _ => cases hi
  | next => cases h.resolve_right (by decide); rfl
  | nextd => cases h.resolve_right (by decide); rfl

/-- Settles O6: a command writes only the words, the flag and the end of the waiting responses, and those as the pure function
says. -/
theorem commandFrame : Obligations.CommandFrame := by
  intro i s t h
  have hflag := exec_seeded h
  obtain rfl := exec_eq_next_iff.mp h
  refine ⟨rfl, rfl, rfl, rfl, ⟨_, rfl⟩, fun hi => ?flag, fun hi hkeep => ?words⟩
  case flag => rw [hflag, hi, Bool.or_false]
  case words => exact congrArg Prod.fst (transact_keeps (σ := (s.words, s.seeded)) hi hkeep)

end Sys2Proof.Proofs
end

section
/-! SUPPORT. A step handles the event at the head of the host's stream, and no step stops the block (30_encoding.md R38,
70_reset_and_hazards.md R95). -/

namespace Sys2Proof.Proofs

open Sys2Proof Sys2Proof.Machine Sys2Proof.Laws

theorem step_nil {s : State} (h : s.input = []) : step s = .next s := by simp only [step, consumeInput, h]

/-- Settles O7: a step is the event at the head of the stream, whichever of the three it is. -/
theorem stepRunsTheNextEvent : Obligations.StepRunsTheNextEvent := by
  refine fun s rest => ⟨fun cw i h hd => ?command, step_cons, step_cons, step_nil⟩
  case command =>
    rw [step_cons h, ← hd]
    rfl

/-- Settles O8: with an event presented the step is that event, and no event stops the block; else the state stays. -/
theorem stepNeverStops : Obligations.StepNeverStops := by
  intro s
  cases h : s.input with
  | nil => exact ⟨s, step_nil h⟩
  | cons e rest => exact step_cons h ▸ handleEvent_total e _

/-- Settles O10: the two cases of a delivery. -/
theorem deliveryTakesTheOldest : Obligations.DeliveryTakesTheOldest :=
  fun _ => ⟨deliver_none, fun _ _ => deliver_some⟩

end Sys2Proof.Proofs
end

section
/-! SUPPORT. The invariant of the ports, kept by every command, delivery and reset, and what it says of the pin `seeded_o`
(30_encoding.md R35, 10_state.md R11, R17). -/

namespace Sys2Proof.Proofs

open Sys2Proof Sys2Proof.Machine Sys2Proof.Laws

/-- What a command's response adds to the ports: the flag is not cleared, an error carries zero and is made without the flag, and
without the flag nothing but zero is answered. -/
theorem transact_coherent (σ : Words × Bool) (i : Instr) :
    (σ.2 = true → (transact σ i).1.2 = true)
    ∧ (!(transact σ i).2.err || (transact σ i).2.data == 0#64) = true
    ∧ (!(transact σ i).2.err || !(transact σ i).1.2) = true
    ∧ ((transact σ i).1.2 || (transact σ i).2.data == 0#64) = true := by
  obtain ⟨w, seeded⟩ := σ
  cases i with
  | nop => simp [transact]
  | init _ => simp [transact]
  | next => cases seeded <;> simp [transact]
  | nextd => cases seeded <;> simp [transact]

theorem all_concat {α : Type} {p : α → Bool} {xs : List α} {x : α} (hxs : xs.all p = true) (hx : p x = true) :
    (xs ++ [x]).all p = true := by
  simp only [List.all_append, List.all_cons, List.all_nil, hxs, hx, Bool.and_self]

theorem portsCoherent_exec {i : Instr} {s t : State} (hs : PortsCoherent s) (h : exec i s = .next t) :
    PortsCoherent t := by
  obtain ⟨hrise, hzero, hunseeded, hnoData⟩ := hs
  obtain ⟨hflag, hzero', hunseeded', hnoData'⟩ := transact_coherent (s.words, s.seeded) i
  have hrsp := responses_exec h
  obtain rfl := exec_eq_next_iff.mp h
  refine ⟨flagsRise_append _ hrise hflag, ?zero, ?unseeded, ?noData⟩
  case zero =>
    rw [errorsCarryZero, hrsp]
    exact all_concat hzero hzero'
  case unseeded => exact all_concat hunseeded hunseeded'
  case noData =>
    rw [noDataBeforeSeed, hrsp, answered]
    cases hf : (transact (s.words, s.seeded) i).1.2 with
    | true => rfl
    | false =>
      have hseeded : s.seeded = false := Bool.eq_false_iff.mpr fun hs => absurd (hflag hs) (by rw [hf]; decide)
      rw [hf, Bool.false_or] at hnoData'
      rw [noDataBeforeSeed, hseeded, Bool.false_or] at hnoData
      exact all_concat hnoData hnoData'

theorem portsCoherent_deliver {s : State} (hs : PortsCoherent s) : PortsCoherent (deliver s) := by
  obtain ⟨hrise, hzero, hunseeded, hnoData⟩ := hs
  refine ⟨?rise, ?zero, ?unseeded, ?noData⟩
  case zero => rwa [errorsCarryZero, responses_deliver]
  case noData => rwa [noDataBeforeSeed, responses_deliver, deliver_seeded]
  all_goals cases h : s.pending with
    | nil => rwa [deliver_none h]
    | cons p rest => ?_
  case rise.cons =>
    rw [h, flagsRise, Bool.and_eq_true] at hrise
    rw [deliver_some h]
    exact hrise.2
  case unseeded.cons =>
    rw [errorsAreUnseeded, h, List.all_cons, Bool.and_eq_true] at hunseeded
    rw [errorsAreUnseeded, deliver_some h]
    exact hunseeded.2

/-- With the flag clear and nothing at the ports the invariant holds, whatever the words. -/
theorem portsCoherent_applyReset (s : State) : PortsCoherent (applyReset s) := by
  simp [PortsCoherent, flagsRise, errorsCarryZero, errorsAreUnseeded, noDataBeforeSeed, responses]

theorem portsCoherent_handleEvent {e : Event} {s t : State} (hs : PortsCoherent s) (h : handleEvent e s = .next t) :
    PortsCoherent t := by
  obtain ⟨cw, -, h⟩ | ⟨-, rfl⟩ | ⟨-, rfl⟩ := handleEvent_cases h
  · exact portsCoherent_exec hs h
  · exact portsCoherent_deliver hs
  · exact portsCoherent_applyReset s

/-- The invariant does not speak of the events still to come. -/
theorem portsCoherent_withInput {s : State} (input : List Event) (hs : PortsCoherent s) :
    PortsCoherent { s with input := input } := hs

/-- Settles O12: a step is one event or none, and each of the three events keeps the invariant. -/
theorem stepKeepsPortsCoherent : Obligations.StepKeepsPortsCoherent := by
  intro s t hs h
  cases hin : s.input with
  | nil =>
    rw [step_nil hin] at h
    cases h
    exact hs
  | cons e rest =>
    rw [step_cons hin] at h
    exact portsCoherent_handleEvent (portsCoherent_withInput rest hs) h

/-- Settles O13: right after reset the flag is clear and nothing is at the ports. -/
theorem resetIsPortsCoherent : Obligations.ResetIsPortsCoherent := by
  unfold Obligations.ResetIsPortsCoherent PortsCoherent
  decide

/-- Where the flags rise along the ports, the last is set if the first is. -/
theorem seeded_of_flagsRise {shown seeded : Bool} {ps : List Pending} (h : flagsRise shown ps seeded = true)
    (hs : shown = true) : seeded = true := by
  induction ps generalizing shown with
  | nil =>
    rw [flagsRise, beq_iff_eq] at h
    rw [← h, hs]
  | cons p ps ih =>
    rw [flagsRise, hs, Bool.not_true, Bool.false_or, Bool.and_eq_true] at h
    exact ih h.2 h.1

/-- Settles O14: the pin shows the flag last delivered or the current one, and the first is not ahead of the second. -/
theorem seededPinShowsOldOrNew : Obligations.SeededPinShowsOldOrNew := by
  rintro s early ⟨hrise, -⟩
  cases early with
  | true => exact ⟨.inr rfl, id, fun _ => rfl⟩
  | false =>
    refine ⟨.inl rfl, fun hs => ?unseeded, fun hp => ?idle⟩
    case unseeded =>
      show s.shown = false
      cases hshown : s.shown with
      | false => rfl
      | true => exact absurd (seeded_of_flagsRise hrise hshown) (by rw [hs]; decide)
    case idle =>
      rw [hp, flagsRise, beq_iff_eq] at hrise
      exact hrise

/-- Settles O20: the status word is the flag as one bit, and the flag is written by `INIT` alone. -/
theorem statusWordIsTheFlag : Obligations.StatusWordIsTheFlag := by
  refine ⟨by decide, fun s => ?bit, fun i s t hi h => ?kept⟩
  case bit => cases h : s.seeded <;> simp [status, h]
  case kept => rw [status, exec_seeded h, hi, Bool.or_false, status]

end Sys2Proof.Proofs
end

section
/-! SUPPORT. The pins and handshakes at a clock edge (30_encoding.md R35). -/

namespace Sys2Proof.Proofs

open Sys2Proof Sys2Proof.Machine Sys2Proof.Laws

theorem handleEvent_command (cw : CommandWord) (s : State) :
    handleEvent (.command cw) s = .next (answered (transact (s.words, s.seeded) (decode cw)) s) :=
  exec_eq_answered (decode cw) s

theorem handleEvent_take (s : State) : handleEvent .take s = .next (deliver s) := rfl

theorem runEvents_singleton (e : Event) (s : State) : runEvents [e] s = handleEvent e s := by
  obtain ⟨t, ht⟩ := handleEvent_total e s
  rw [runEvents_cons_next ht, runEvents_nil, ht]

/-- The events of an edge, by its three controls. -/
theorem edgeEvents_eq (p : PinsIn) (c : EdgeChoice) :
    edgeEvents p c = if p.rst then [.reset] else
      (if p.cmdValid && c.cmdReady then [.command (commandWord p.cmdOp p.cmdSeed)] else [])
        ++ (if c.rspValid && p.rspReady then [.take] else []) := by
  cases h : p.rst <;> simp [edgeEvents, acceptEvents, h]

/-- Settles O15: the events of the edge in each of its five cases, handled one after the other. -/
theorem edgeHandshakes : Obligations.EdgeHandshakes := by
  intro p c s
  simp only [clockEdge, edgeEvents_eq]
  refine ⟨fun hr => ?reset, fun hr hv hc hd => ?accept, fun hr ha hd hv => ?deliver, fun hr hv hc hd hq t ht => ?both,
    fun hr ha hd => ?neither⟩
  case reset =>
    rw [hr]
    rfl
  case accept =>
    rw [hr, hv, hc, hd]
    exact runEvents_singleton _ s
  case deliver =>
    rw [hr, ha, hd, hv]
    rfl
  case both =>
    rw [hr, hv, hc, hd, hq]
    exact runEvents_cons_next ht
  case neither =>
    rw [hr, ha, hd]
    rfl

/-- While `rsp_valid` is 1 a response waits, and the oldest is on the wires. -/
theorem presented_is_oldest {c : EdgeChoice} {s : State} (h : (pinsOut c s).rspValid = true) :
    ∃ p rest, s.pending = p :: rest ∧ (pinsOut c s).rspErr = p.rsp.err ∧ (pinsOut c s).rspData = p.rsp.data := by
  rw [pinsOut, Bool.and_eq_true] at h
  cases hp : s.pending with
  | nil => simp [hp] at h
  | cons p rest => exact ⟨p, rest, rfl, by simp [pinsOut, presentedResponse, hp, h.1]⟩

/-- Settles O16: `rsp_valid` is 0 where nothing waits, and else the head of the waiting list is presented. -/
theorem presentedResponseIsTheOldest : Obligations.PresentedResponseIsTheOldest :=
  fun _ _ => presented_is_oldest

/-- Accepting a command leaves the oldest waiting response where it is. -/
theorem settle_keeps_oldest {p : PinsIn} {c : EdgeChoice} {s t : State} {x : Pending} (h : settle p c s = .next t)
    (hx : s.pending.head? = some x) : t.pending.head? = some x := by
  rw [settle, acceptEvents] at h
  split at h
  · rw [runEvents_singleton] at h
    obtain rfl := exec_eq_next_iff.mp h
    simp [answered, hx]
  · cases h
    exact hx

/-- Over edges without reset at which nothing is delivered the oldest waiting response stays the oldest. -/
theorem quiet_runEdges_keeps_oldest {edges : List (PinsIn × EdgeChoice)} {s t : State} {x : Pending}
    (hquiet : ∀ e ∈ edges, e.1.rst = false ∧ (e.2.rspValid && e.1.rspReady) = false) (h : runEdges edges s = .next t)
    (hx : s.pending.head? = some x) : t.pending.head? = some x := by
  induction edges generalizing s with
  | nil =>
    cases h
    exact hx
  | cons e edges ih =>
    obtain ⟨⟨hr, hd⟩, hquiet⟩ := List.forall_mem_cons.mp hquiet
    obtain ⟨u, hu⟩ := runEvents_total (acceptEvents e.1 e.2) s
    rw [runEdges_cons_next ((clockEdge_quiet s hr hd).trans hu)] at h
    exact ih hquiet h (settle_keeps_oldest hu hx)

/-- Settles O17: the response presented first is the oldest waiting one, it stays so over the edges between, and the one presented
next is the oldest again. -/
theorem undeliveredResponseIsHeld : Obligations.UndeliveredResponseIsHeld := by
  intro p p' c c' between s s₁ s₂ s₃ hr hsettle hvalid hnotReady hquiet hrun hsettle' hvalid'
  obtain ⟨x, rest, hx, herr, hdata⟩ := presented_is_oldest hvalid
  obtain ⟨y, rest', hy, herr', hdata'⟩ := presented_is_oldest hvalid'
  have hfirst : clockEdge p c s = .next s₁ :=
    (clockEdge_quiet s hr (by rw [hnotReady, Bool.and_false])).trans hsettle
  rw [runEdges_cons_next hfirst] at hrun
  have hx₁ : s₁.pending.head? = some x := by rw [hx, List.head?_cons]
  have hx₃ := settle_keeps_oldest hsettle' (quiet_runEdges_keeps_oldest hquiet hrun hx₁)
  rw [hy, List.head?_cons, Option.some_inj] at hx₃
  rw [herr', hdata', hx₃, herr, hdata]
  exact ⟨rfl, rfl⟩

/-- While a response waits, delivering it before a command or after it leaves the same state. -/
theorem deliver_answered {s : State} (h : s.pending ≠ []) (result : (Words × Bool) × Response) :
    deliver (answered result s) = answered result (deliver s) := by
  obtain ⟨words, seeded, input, pending, delivered, shown, resets⟩ := s
  cases pending with
  | nil => exact absurd rfl h
  | cons p rest => rfl

/-- Settles O18: a delivery changes no word and no flag, so the command answers the same before and after it. -/
theorem acceptanceAndDeliveryCommute : Obligations.AcceptanceAndDeliveryCommute := by
  intro cw s h
  refine ⟨answered (transact (s.words, s.seeded) (decode cw)) (deliver s), ?_, ?_⟩
  · rw [runEvents_cons_next (handleEvent_command cw s), runEvents_singleton, handleEvent_take, deliver_answered h]
  · rw [runEvents_cons_next (handleEvent_take s), runEvents_singleton, handleEvent_command, deliver_words, deliver_seeded]

end Sys2Proof.Proofs
end

section
/-! SUPPORT. The arithmetic primitives (00_scope.md R8) and the rotation (41_next_integer.md R50): what they do on numbers and on
bits, and that exclusive-or goes through them. -/

namespace Sys2Proof.Proofs

open Sys2Proof Sys2Proof.Machine Sys2Proof.Laws

theorem toNat_shl (x : Word) (n : Nat) (h : n ≤ 63) : (shl x n h).toNat = x.toNat * 2 ^ n % 2 ^ 64 := by
  rw [shl, BitVec.toNat_shiftLeft, Nat.shiftLeft_eq]

/-- Settles O31: a product and the two shifts, each as arithmetic on numbers. -/
theorem primitivesWrap : Obligations.PrimitivesWrap :=
  fun x y => ⟨toNat_mul64 x y, fun n h => ⟨toNat_shr x n h, toNat_shl x n h⟩⟩

theorem rotl_eq_rotateLeftAux (x : Word) (k : Nat) (h : 1 ≤ k ∧ k ≤ 63) : rotl x k h = x.rotateLeftAux k := rfl

/-- Bit i goes to bit (i + k) mod 64: a low bit by the left shift, a high one by the right shift. -/
theorem getLsbD_rotl (x : Word) (k : Nat) (h : 1 ≤ k ∧ k ≤ 63) {i : Nat} (hi : i < 64) :
    (rotl x k h).getLsbD ((i + k) % 64) = x.getLsbD i := by
  rw [rotl_eq_rotateLeftAux]
  by_cases hik : i + k < 64
  · rw [Nat.mod_eq_of_lt hik, BitVec.getLsbD_rotateLeftAux_of_ge (Nat.le_add_left k i), decide_eq_true hik,
      Bool.true_and, Nat.add_sub_cancel]
  · have hmod : (i + k) % 64 = i + k - 64 := by omega
    rw [hmod, BitVec.getLsbD_rotateLeftAux_of_lt (by omega), show 64 - k + (i + k - 64) = i by omega]

/-- The bits shifted left stand above bit k, those shifted right below it. -/
theorem shl_and_shr_eq_zero (x : Word) (k : Nat) (h : 1 ≤ k ∧ k ≤ 63) :
    shl x k h.2 &&& shr x (64 - k) (by omega) = 0#64 := by
  refine BitVec.eq_of_getLsbD_eq fun i _ => ?_
  rw [shl, shr, BitVec.getLsbD_and, BitVec.getLsbD_shiftLeft, BitVec.getLsbD_ushiftRight, BitVec.getLsbD_zero]
  by_cases hik : i < k
  · simp [hik]
  · rw [BitVec.getLsbD_of_ge x (64 - k + i) (by omega), Bool.and_false]

/-- A rotation by k and one by 64 - k bring every bit home. -/
theorem rotl_rotl (x : Word) (k : Nat) (h : 1 ≤ k ∧ k ≤ 63) : rotl (rotl x k h) (64 - k) (by omega) = x := by
  refine BitVec.eq_of_getLsbD_eq fun i hi => ?_
  have hhome : i = ((i + k) % 64 + (64 - k)) % 64 := by omega
  conv_lhs => rw [hhome]
  rw [getLsbD_rotl _ (64 - k) (by omega) (Nat.mod_lt _ (by decide)), getLsbD_rotl x k h hi]

/-- Settles O32: the definition, the bit law, the halves apart, and the inverse by the bit law twice. -/
theorem rotlRotates : Obligations.RotlRotates :=
  fun x k h => ⟨rfl, fun _ => getLsbD_rotl x k h, shl_and_shr_eq_zero x k h, rotl_rotl x k h⟩

theorem rotl_injective (k : Nat) (h : 1 ≤ k ∧ k ≤ 63) : Function.Injective fun x => rotl x k h :=
  Function.LeftInverse.injective (g := fun y => rotl y (64 - k) (by omega)) fun x => rotl_rotl x k h

theorem shl_xor (x y : Word) (n : Nat) (h : n ≤ 63) : shl (x ^^^ y) n h = shl x n h ^^^ shl y n h :=
  BitVec.shiftLeft_xor_distrib x y n

theorem shr_xor (x y : Word) (n : Nat) (h : n ≤ 63) : shr (x ^^^ y) n h = shr x n h ^^^ shr y n h :=
  BitVec.ushiftRight_xor_distrib x y n

theorem rotl_xor (x y : Word) (k : Nat) (h : 1 ≤ k ∧ k ≤ 63) : rotl (x ^^^ y) k h = rotl x k h ^^^ rotl y k h := by
  refine BitVec.eq_of_getLsbD_eq fun i hi => ?_
  have hfrom : i = ((i + (64 - k)) % 64 + k) % 64 := by omega
  have hlt : (i + (64 - k)) % 64 < 64 := Nat.mod_lt _ (by decide)
  rw [hfrom, BitVec.getLsbD_xor, getLsbD_rotl _ k h hlt, getLsbD_rotl _ k h hlt, getLsbD_rotl _ k h hlt, BitVec.getLsbD_xor]

end Sys2Proof.Proofs
end

section
/-! SUPPORT. Stages that lose nothing: a word mixed with itself shifted, and a product with an odd number. Of them `mix` and the
output are made (40_seed_expander.md R40, 41_next_integer.md R51). -/

namespace Sys2Proof.Proofs

open Sys2Proof Sys2Proof.Machine Sys2Proof.Laws

theorem eq_zero_of_eq_shr {x : Word} {n : Nat} {h : n ≤ 63} (hn : 1 ≤ n) (hx : x = shr x n h) : x = 0#64 := by
  have hdiv : x.toNat = x.toNat / 2 ^ n := by rw [← toNat_shr x n h, ← hx]
  have hpow : 1 < 2 ^ n := Nat.one_lt_two_pow (by omega)
  have hzero : x.toNat = 0 := by
    by_contra hne
    exact absurd (Nat.div_lt_self (Nat.pos_of_ne_zero hne) hpow) (by omega)
  exact BitVec.eq_of_toNat_eq hzero

theorem eq_zero_of_eq_shl {x : Word} {n : Nat} {h : n ≤ 63} (hn : 1 ≤ n) (hx : x = shl x n h) : x = 0#64 := by
  have hbit (i : Nat) : x.getLsbD i = false := by
    induction i using Nat.strong_induction_on with
    | _ i ih =>
      rw [hx, shl, BitVec.getLsbD_shiftLeft]
      by_cases hi : i < n
      · simp [hi]
      · rw [ih (i - n) (by omega), Bool.and_false]
  exact BitVec.eq_of_getLsbD_eq fun i _ => (hbit i).trans BitVec.getLsbD_zero.symm

/-- Words that mix to one value differ by a word that equals its own image; where that is 0 alone, nothing is lost. -/
theorem xor_image_injective {f : Word → Word} (hf : ∀ x y, f (x ^^^ y) = f x ^^^ f y) (hfix : ∀ x, x = f x → x = 0#64) :
    Function.Injective fun x => x ^^^ f x := by
  intro x y hxy
  have hxy : x ^^^ f x = y ^^^ f y := hxy
  have hdiff : (x ^^^ y) ^^^ f (x ^^^ y) = 0#64 :=
    calc (x ^^^ y) ^^^ f (x ^^^ y)
      _ = (x ^^^ f x) ^^^ (y ^^^ f y) := by rw [hf]; ac_rfl
      _ = 0#64 := by rw [hxy, BitVec.xor_self]
  exact BitVec.xor_eq_zero_iff.mp (hfix _ (BitVec.xor_eq_zero_iff.mp hdiff))

theorem xor_shr_injective {n : Nat} (h : n ≤ 63) (hn : 1 ≤ n) : Function.Injective fun x : Word => x ^^^ shr x n h :=
  xor_image_injective (fun x y => shr_xor x y n h) fun _ => eq_zero_of_eq_shr hn

/-- A product with a number that has an inverse mod 2^64 loses nothing. -/
theorem mul64_injective {k inv : Word} (h : mul64 k inv = 1#64) : Function.Injective fun x => mul64 x k := by
  refine Function.LeftInverse.injective (g := fun y => mul64 y inv) fun x => ?_
  have hk : k * inv = 1#64 := h
  simp only [mul64, BitVec.mul_assoc, hk, BitVec.mul_one]

/-- `mix` is a chain of five stages, each of which loses nothing (40_seed_expander.md R40). -/
theorem mix_injective : Function.Injective mix := by
  have hmulA : mul64 mixMulA 0x96DE1B173F119089#64 = 1#64 := by decide
  have hmulB : mul64 mixMulB 0x319642B2D24D8EC3#64 = 1#64 := by decide
  exact (xor_shr_injective (n := mixShiftC) (by decide) (by decide)).comp <| (mul64_injective hmulB).comp <|
    (xor_shr_injective (n := mixShiftB) (by decide) (by decide)).comp <| (mul64_injective hmulA).comp <|
    xor_shr_injective (n := mixShiftA) (by decide) (by decide)

theorem mix_zero : mix 0#64 = 0#64 := by decide

theorem mix_eq_zero_iff (z : Word) : mix z = 0#64 ↔ z = 0#64 := by
  rw [← mix_zero, mix_injective.eq_iff, mix_zero]

/-- Settles O26: `mix` loses nothing, and there are as many words as results. -/
theorem mixIsBijective : Obligations.MixIsBijective :=
  ⟨mix_zero, mix_injective.bijective_of_finite, fun z => (mix_eq_zero_iff z).mp⟩

/-- Settles O28: each word of the expansion is `mix` of the seed or of the word before, and `mix` is 0 at 0 alone. -/
theorem onlySeedZeroIsAllZero : Obligations.OnlySeedZeroIsAllZero := by
  intro seed s
  refine ⟨_, exec_init seed s, ?zero, fun hseed => ?nonzero⟩
  case zero => simp [expandSeed, mix_eq_zero_iff]
  case nonzero => simp [Fin.forall_fin_succ, getWord, expandSeed, mix_eq_zero_iff, hseed]

/-- Settles O29: `mix` keeps distinct seeds distinct, and every word is the first of some seed's expansion. -/
theorem initStatesAreMixChains : Obligations.InitStatesAreMixChains := by
  refine ⟨fun v w hvw => mix_injective.ne hvw, fun ws => ⟨?chain, ?seed⟩⟩
  case chain =>
    rintro ⟨seed, rfl⟩
    exact ⟨rfl, rfl, rfl⟩
  case seed =>
    obtain ⟨s0, s1, s2, s3⟩ := ws
    rintro ⟨h1, h2, h3⟩
    obtain ⟨seed, rfl⟩ := mix_injective.bijective_of_finite.surjective s0
    dsimp only at h1 h2 h3
    subst h1 h2 h3
    exact ⟨seed, rfl⟩

/-- The output as a function of the one word it reads (41_next_integer.md R51). -/
theorem output_of_second_injective (a c d : Word) : Function.Injective fun b => output ⟨a, b, c, d⟩ := by
  have hmulA : mul64 outMulA 0xCCCCCCCCCCCCCCCD#64 = 1#64 := by decide
  have hmulB : mul64 outMulB 0x8E38E38E38E38E39#64 = 1#64 := by decide
  exact (mul64_injective hmulB).comp <| (rotl_injective outRot (by decide)).comp <| mul64_injective hmulA

theorem output_eq_iff (v w : Words) : output v = output w ↔ v.s1 = w.s1 :=
  (output_of_second_injective v.s0 v.s2 v.s3).eq_iff (a := v.s1) (b := w.s1)

/-- Settles O38: the output loses nothing of `s[1]` and reads nothing else, so it takes every value, and 0 where `s[1]` is 0. -/
theorem outputIsBijectiveInSecondWord : Obligations.OutputIsBijectiveInSecondWord := by
  refine ⟨output_eq_iff, fun a c d => (output_of_second_injective a c d).bijective_of_finite.surjective, fun w => ?zero⟩
  have hzero : output ⟨0, 0, 0, 0⟩ = 0#64 := by decide
  rw [← hzero, output_eq_iff]
  rfl

end Sys2Proof.Proofs
end

section
/-! SUPPORT. The step on the four words (41_next_integer.md R51): its closed form, its linearity (R57), and, from the states it
takes to zero, which states share a successor (R53, R54). -/

namespace Sys2Proof.Proofs

open Sys2Proof Sys2Proof.Machine Sys2Proof.Laws

/-- A command that advances the state completes with the words of one step where the flag is set. -/
theorem exec_advances_seeded {i : Instr} {s : State} (ha : advances i = true) (hs : s.seeded = true) :
    ∃ t, exec i s = .next t ∧ t.words = nextWords s.words := by
  cases i with
  | nop => cases ha
  | init _ => cases ha
  | next => exact ⟨_, exec_next_seeded hs, by simp⟩
  | nextd => exact ⟨_, exec_nextd_seeded hs, by simp⟩

/-- The closed form by substituting the statements (41_next_integer.md R51). -/
theorem nextWords_mk (a b c d : Word) :
    nextWords ⟨a, b, c, d⟩ = ⟨a ^^^ b ^^^ d, a ^^^ b ^^^ c, a ^^^ c ^^^ shl b 17, rotl (a ^^^ b ^^^ c) 45⟩ :=
  nextWords_eq_closedNext ⟨a, b, c, d⟩

/-- Settles O52: the closed form holds for all words, and both advancing commands write the words of the step. -/
theorem stepHasItsClosedForm : Obligations.StepHasItsClosedForm := by
  refine ⟨nextWords_mk, fun i s ha hs => ?_⟩
  obtain ⟨t, ht, hw⟩ := exec_advances_seeded ha hs
  exact ⟨t, ht, hw.trans (nextWords_eq_closedNext s.words)⟩

/-- Settles O34: the last statement of the step writes the rotated `s[1]`. -/
theorem stepLeavesRotatedWord : Obligations.StepLeavesRotatedWord := by
  intro i s ha hs
  obtain ⟨t, ht, hw⟩ := exec_advances_seeded ha hs
  refine ⟨t, ht, ?_⟩
  rw [hw]
  rfl

theorem xor_pairs_three (a b c a' b' c' : Word) :
    (a ^^^ a') ^^^ (b ^^^ b') ^^^ (c ^^^ c') = (a ^^^ b ^^^ c) ^^^ (a' ^^^ b' ^^^ c') := by
  ac_rfl

/-- The step of an exclusive-or is the exclusive-or of the steps: the closed form is made of exclusive-ors, a shift and a
rotation, which are all linear. -/
theorem nextWords_xorWords (v w : Words) : nextWords (xorWords v w) = xorWords (nextWords v) (nextWords w) := by
  obtain ⟨a, b, c, d⟩ := v
  obtain ⟨a', b', c', d'⟩ := w
  rw [xorWords, nextWords_mk, nextWords_mk, nextWords_mk, xorWords, ← rotl_xor, shl_xor, Words.mk.injEq]
  exact ⟨xor_pairs_three .., xor_pairs_three .., xor_pairs_three .., congrArg (rotl · 45) (xor_pairs_three ..)⟩

/-- Settles O39: the closed form is linear. -/
theorem stepIsLinear : Obligations.StepIsLinear := nextWords_xorWords

theorem nextWords_zero : nextWords Words.zero = Words.zero := by decide

/-- The states the step takes to zero: their second word equals its own shift, so it is 0. -/
theorem nextWords_eq_zero_iff (w : Words) : nextWords w = Words.zero ↔ w.s1 = 0#64 ∧ w.s2 = w.s0 ∧ w.s3 = w.s0 := by
  obtain ⟨a, b, c, d⟩ := w
  constructor
  · intro h
    rw [nextWords_mk, Words.zero, Words.mk.injEq] at h
    obtain ⟨h0, h1, h2, -⟩ := h
    have hac : b = a ^^^ c := BitVec.xor_eq_zero_iff.mp (Eq.trans (by ac_rfl) h1)
    have hshl : a ^^^ c = shl b 17 := BitVec.xor_eq_zero_iff.mp h2
    have hb : b = 0#64 := eq_zero_of_eq_shl (by decide) (hac.trans hshl)
    rw [hb, BitVec.xor_zero] at h0
    exact ⟨hb, (BitVec.xor_eq_zero_iff.mp (hac.symm.trans hb)).symm, (BitVec.xor_eq_zero_iff.mp h0).symm⟩
  · intro h
    obtain ⟨rfl, rfl, rfl⟩ : b = 0#64 ∧ c = a ∧ d = a := h
    have hshl : shl 0#64 17 = 0#64 := by decide
    have hrotl : rotl 0#64 45 = 0#64 := by decide
    rw [nextWords_mk, BitVec.xor_zero, BitVec.xor_self, hshl, hrotl, BitVec.xor_zero]
    rfl

/-- Settles O36: zero words step to themselves, and what steps to them is the kernel of the step. -/
theorem zeroStatePredecessors : Obligations.ZeroStatePredecessors :=
  ⟨nextWords_zero, by decide, nextWords_eq_zero_iff⟩

theorem xorWords_eq_zero_iff (v w : Words) : xorWords v w = Words.zero ↔ v = w := by
  obtain ⟨a, b, c, d⟩ := v
  obtain ⟨a', b', c', d'⟩ := w
  have hzero (x y : Word) : x ^^^ y = 0 ↔ x = y := BitVec.xor_eq_zero_iff
  rw [xorWords, Words.zero, Words.mk.injEq, Words.mk.injEq, hzero, hzero, hzero, hzero]

/-- States share a successor where their difference is a state that the step takes to zero. -/
theorem nextWords_eq_iff (v w : Words) :
    nextWords v = nextWords w ↔ ∃ x : Word, w = ⟨v.s0 ^^^ x, v.s1, v.s2 ^^^ x, v.s3 ^^^ x⟩ := by
  rw [← xorWords_eq_zero_iff, ← nextWords_xorWords, nextWords_eq_zero_iff]
  obtain ⟨a, b, c, d⟩ := v
  obtain ⟨a', b', c', d'⟩ := w
  have hdiff (x y : Word) : y = x ^^^ (x ^^^ y) := by rw [← BitVec.xor_assoc, BitVec.xor_self, BitVec.zero_xor]
  constructor
  · intro h
    obtain ⟨hb, hc, hd⟩ : b ^^^ b' = 0#64 ∧ c ^^^ c' = a ^^^ a' ∧ d ^^^ d' = a ^^^ a' := h
    refine ⟨a ^^^ a', ?_⟩
    rw [Words.mk.injEq]
    exact ⟨hdiff a a', (BitVec.xor_eq_zero_iff.mp hb).symm, hc ▸ hdiff c c', hd ▸ hdiff d d'⟩
  · rintro ⟨x, hx⟩
    rw [Words.mk.injEq] at hx
    obtain ⟨rfl, rfl, rfl, rfl⟩ := hx
    simp only [xorWords, ← BitVec.xor_assoc, BitVec.xor_self, and_self]

/-- Settles O35: the exact collisions, in which `s[1]`, all that the output reads, is the same. -/
theorem stepCollisionsExactly : Obligations.StepCollisionsExactly := by
  refine fun v w => ⟨nextWords_eq_iff v w, fun h => ?_⟩
  obtain ⟨x, rfl⟩ := (nextWords_eq_iff v w).mp h
  rfl

end Sys2Proof.Proofs
end

section
/-! SUPPORT. The doubles that `NEXTD` answers (42_next_double.md R61, R62): each is exactly its 53 bits over 2^53, and as a pattern
it is zero or stands between those of 2^-53 and of 1 - 2^-53. -/

namespace Sys2Proof.Proofs

open Sys2Proof Sys2Proof.Machine Sys2Proof.Laws

/-- Settles O41: the exponent and fraction of `u2d` put the bits of m, leading 1 first, back over 2^53. -/
theorem doubleIsExact : Obligations.DoubleIsExact := binary64Value_u2d

/-- Different integers have different doubles, for they have different values. -/
theorem u2d_injective : Function.Injective u2d := by
  intro m n h
  have hvalue := congrArg binary64Value h
  rw [binary64Value_u2d, binary64Value_u2d, Option.some_inj, div_left_inj' (by positivity), Nat.cast_inj] at hvalue
  exact BitVec.eq_of_toNat_eq hvalue

theorem toNat_fields (sign : BitVec 1) (e : BitVec 11) (f : BitVec 52) :
    ((sign ++ e) ++ f : Word).toNat = (sign.toNat * 2 ^ 11 + e.toNat) * 2 ^ 52 + f.toNat := by
  rw [BitVec.toNat_append, BitVec.toNat_append, ← Nat.shiftLeft_add_eq_or_of_lt f.isLt,
    ← Nat.shiftLeft_add_eq_or_of_lt e.isLt, Nat.shiftLeft_eq, Nat.shiftLeft_eq]

/-- The exponent of a double other than 0 is 970 to 1022, so its pattern is from that of 2^-53 to that of 1 - 2^-53. -/
theorem toNat_u2d_bounds {m : BitVec 53} (hm : m ≠ 0#53) :
    0x3CA0000000000000 ≤ (u2d m).toNat ∧ (u2d m).toNat ≤ 0x3FEFFFFFFFFFFFFF := by
  have hp : Nat.log2 m.toNat < 53 := (Nat.log2_lt fun h => hm (BitVec.eq_of_toNat_eq h)).mpr m.isLt
  have hexp : (BitVec.ofNat 11 (970 + Nat.log2 m.toNat)).toNat = 970 + Nat.log2 m.toNat := Nat.mod_eq_of_lt (by omega)
  rw [u2d, if_neg hm, toNat_fields, hexp]
  have hfrac := (BitVec.ofNat 52 ((m.toNat - 2 ^ Nat.log2 m.toNat) * 2 ^ (52 - Nat.log2 m.toNat))).isLt
  have hsign : (0#1).toNat = 0 := rfl
  omega

theorem topBits_eq_zero_iff (r : Word) : topBits r = 0#53 ↔ r.toNat < 2 ^ 11 := by
  rw [← BitVec.toNat_inj, toNat_topBits]
  exact Nat.div_eq_zero_iff_lt (by decide)

/-- Settles O42: below 2^11 the 53 bits are 0; else the bounds of the exponent hold, and both ends are computed. -/
theorem doubleRange : Obligations.DoubleRange := by
  refine ⟨fun r => ⟨fun hr => ?zero, fun hr => ?range⟩, by decide, by decide, u2d_injective⟩
  case zero =>
    rw [(topBits_eq_zero_iff r).mpr hr]
    rfl
  case range => exact toNat_u2d_bounds fun h => absurd ((topBits_eq_zero_iff r).mp h) (by omega)

end Sys2Proof.Proofs
end

section
/-! SUPPORT. Several blocks, which share nothing (20_memory.md R28), and several hosts on one block (70_reset_and_hazards.md R88). -/

namespace Sys2Proof.Proofs

open Sys2Proof Sys2Proof.Machine Sys2Proof.Laws

/-- A step of one block advances that one and reads and writes no other. -/
theorem getElem?_stepInstance (sys : List State) (i j : Nat) :
    (stepInstance j sys)[i]? = if j = i then sys[i]?.map advance else sys[i]? := by
  induction sys generalizing i j with
  | nil => simp [stepInstance]
  | cons s rest ih =>
    cases j with
    | zero => cases i <;> simp [stepInstance]
    | succ j =>
      cases i with
      | zero => simp [stepInstance]
      | succ i => simp [stepInstance, ih]

/-- Settles O47: by induction over the interleaving; a turn of block i is one step of it, a turn of another is none. -/
theorem instancesAreIndependent : Obligations.InstancesAreIndependent := by
  intro order
  induction order with
  | nil =>
    intro sys i
    cases h : sys[i]? <;> simp [runSchedule, advanceBy, h]
  | cons j order ih =>
    intro sys i
    rw [runSchedule, ih, getElem?_stepInstance, List.count_cons]
    by_cases hj : j = i
    · cases h : sys[i]? <;> simp [hj, advanceBy]
    · simp [hj]

/-- An event passed on counts as its own host's. -/
theorem shareOf_cons (h j : Nat) (e : Event) (merged : List (Nat × Event)) :
    shareOf h ((j, e) :: merged) = if j = h then e :: shareOf h merged else shareOf h merged := by
  by_cases hj : j = h <;> simp [shareOf, hj]

theorem mergeHosts_turn {j : Nat} {order : List Nat} {hosts : List (List Event)} {e : Event} {rest : List Event}
    (h : hosts[j]? = some (e :: rest)) :
    mergeHosts (j :: order) hosts = (j, e) :: mergeHosts order (hosts.set j rest) := by
  rw [mergeHosts, h]

/-- A turn of a host with nothing to send, or of none, is skipped. -/
theorem mergeHosts_skip {j : Nat} {order : List Nat} {hosts : List (List Event)} (h : (hosts[j]?).getD [] = []) :
    mergeHosts (j :: order) hosts = mergeHosts order hosts := by
  rw [mergeHosts]
  split
  · simp_all
  · rfl
  · rfl

/-- Settles O48: by induction over the turns; a turn of host h passes on the head of its stream if it has one, and a turn of
another host leaves that stream as it is. -/
theorem mergeKeepsEachHostsOrder : Obligations.MergeKeepsEachHostsOrder := by
  intro order
  induction order with
  | nil =>
    intro hosts h
    simp [mergeHosts, shareOf]
  | cons j order ih =>
    intro hosts h
    rw [List.count_cons]
    cases hown : (hosts[j]?).getD [] with
    | nil =>
      rw [mergeHosts_skip hown, ih]
      by_cases hj : j = h
      · rw [← hj, hown, List.take_nil, List.take_nil]
      · simp [hj]
    | cons e rest =>
      have hhost : hosts[j]? = some (e :: rest) := by
        cases hget : hosts[j]? with
        | none => simp [hget] at hown
        | some _ => rw [← hown, hget, Option.getD_some]
      rw [mergeHosts_turn hhost, shareOf_cons, ih]
      by_cases hj : j = h
      · have hlt : j < hosts.length := (List.getElem?_eq_some_iff.mp hhost).1
        subst hj
        rw [List.getElem?_set_self hlt, hown]
        simp
      · simp [hj]

end Sys2Proof.Proofs
end

section
/-! SUPPORT. Lists of commands (30_encoding.md R38): they are the pure function of their commands, whose responses join those that
wait. So what a list of commands answers is a fact about the pure function. -/

namespace Sys2Proof.Proofs

open Sys2Proof Sys2Proof.Machine Sys2Proof.Laws

/-- A list of commands completes, leaves the words and flag of the pure function, and adds its responses to those that wait. -/
theorem runEvents_commandEvents (cs : List Instr) (s : State) :
    ∃ t, runEvents (commandEvents cs) s = .next t
      ∧ (t.words, t.seeded) = (transactAll (s.words, s.seeded) cs).1
      ∧ t.pending.map Pending.rsp = s.pending.map Pending.rsp ++ (transactAll (s.words, s.seeded) cs).2
      ∧ t.delivered = s.delivered := by
  induction cs generalizing s with
  | nil => exact ⟨s, rfl, rfl, (List.append_nil _).symm, rfl⟩
  | cons c cs ih =>
    obtain ⟨t, ht, hstate, hpending, hdelivered⟩ := ih (answered (transact (s.words, s.seeded) c) s)
    have hfirst := handleEvent_command (encode c) s
    rw [decode_encode] at hfirst
    refine ⟨t, (runEvents_cons_next hfirst).trans ht, hstate, hpending.trans ?_, hdelivered⟩
    simp [answered, transactAll_cons]

/-- As many deliveries as responses wait deliver them all, in order, and touch no word and no flag. -/
theorem runEvents_take_all {n : Nat} {s : State} (h : s.pending.length = n) :
    ∃ t, runEvents (List.replicate n .take) s = .next t
      ∧ t.words = s.words ∧ t.seeded = s.seeded ∧ t.pending = []
      ∧ t.delivered = s.delivered ++ s.pending.map Pending.rsp := by
  induction n generalizing s with
  | zero =>
    have hnone : s.pending = [] := List.eq_nil_of_length_eq_zero h
    exact ⟨s, rfl, rfl, rfl, hnone, by rw [hnone, List.map_nil, List.append_nil]⟩
  | succ n ih =>
    obtain ⟨p, rest, hp⟩ := List.exists_cons_of_length_eq_add_one h
    have hd := deliver_some hp
    rw [hp, List.length_cons, Nat.add_right_cancel_iff] at h
    obtain ⟨t, ht, hwords, hseeded, hpending, hdelivered⟩ := ih (s := deliver s) (by rw [hd]; exact h)
    rw [List.replicate_succ, runEvents_cons_next (handleEvent_take s)]
    refine ⟨t, ht, hwords.trans (deliver_words s), hseeded.trans (deliver_seeded s), hpending, hdelivered.trans ?_⟩
    simp [hd, hp]

theorem transactAll_length (σ : Words × Bool) (cs : List Instr) : (transactAll σ cs).2.length = cs.length := by
  induction cs generalizing σ with
  | nil => rfl
  | cons c cs ih => rw [transactAll_cons, List.length_cons, List.length_cons, ih]

/-- As many steps as events are presented handle them all. -/
theorem run_whole_input (s : State) :
    Host.Core.run Sys2Proof.core s.input.length s = runEvents s.input { s with input := [] } :=
  run_eq_runEvents (List.append_nil _).symm

/-- Settles O11: the commands leave their responses waiting, and that many deliveries with those that waited before take them
all. -/
theorem runCompletesWhenTaken : Obligations.RunCompletesWhenTaken := by
  intro cs s
  obtain ⟨u, hu, hstate, hpending, hdelivered⟩ := runEvents_commandEvents cs { s with input := [] }
  have hlength : u.pending.length = s.pending.length + cs.length := by
    simpa [transactAll_length] using congrArg List.length hpending
  obtain ⟨t, ht, hwords, hseeded, hnone, htaken⟩ := runEvents_take_all hlength
  have hrun := (runEvents_append_next hu).trans ht
  refine ⟨t, ?run, ⟨runEvents_input hrun, hnone⟩, ?state, ?taken⟩
  case run =>
    have hsteps : (commandEvents cs ++ List.replicate (s.pending.length + cs.length) Event.take).length
        = cs.length + (s.pending.length + cs.length) := by simp [commandEvents]
    exact hsteps ▸ (run_whole_input { s with input := _ }).trans hrun
  case state => rw [hwords, hseeded, hstate]
  case taken => rw [htaken, hdelivered, hpending, List.append_assoc]

/-- On an unseeded block every command answers (1, 0) if it advances the state and else (0, 0). -/
theorem transact_unseeded_response (w : Words) (i : Instr) : (transact (w, false) i).2 = ⟨advances i, 0#64⟩ := by
  cases i <;> rfl

/-- Settles O22: the reset empties both sides of the port, so the one response is that of the command after it, on an unseeded
block. -/
theorem resetAbandonsResponses : Obligations.ResetAbandonsResponses := by
  intro es s i
  obtain ⟨u, hu⟩ := runEvents_total es s
  have hreset : handleEvent .reset u = .next (applyReset u) := rfl
  rw [runEvents_append_next hu, runEvents_cons_next hreset, runEvents_cons_next (handleEvent_command _ _),
    runEvents_singleton, handleEvent_take, decode_encode, applyReset_seeded]
  refine ⟨_, rfl, rfl, ?_⟩
  rw [← transact_unseeded_response (applyReset u).words i]
  rfl

/-- Where every command but `INIT` leaves the words and the flag, a list of such commands leaves them, and each answers as at
first. -/
theorem transactAll_fixed {σ : Words × Bool} {answer : Instr → Response}
    (hfix : ∀ c, isInit c = false → transact σ c = (σ, answer c)) {cs : List Instr}
    (h : cs.all (fun c => !isInit c) = true) : transactAll σ cs = (σ, cs.map answer) := by
  induction cs with
  | nil => rfl
  | cons c cs ih =>
    rw [List.all_cons, Bool.and_eq_true, Bool.not_eq_true'] at h
    rw [transactAll_cons, hfix c h.1, ih h.2, List.map_cons]

theorem transact_unseeded (w : Words) {c : Instr} (h : isInit c = false) :
    transact (w, false) c = ((w, false), ⟨advances c, 0#64⟩) :=
  Prod.ext (transact_keeps h (.inl rfl)) (transact_unseeded_response w c)

/-- With the flag no command clears it or answers an error. -/
theorem transactAll_seeded_err (w : Words) (cs : List Instr) : ∀ r ∈ (transactAll (w, true) cs).2, r.err = false := by
  induction cs generalizing w with
  | nil => simp [transactAll]
  | cons c cs ih =>
    have hflag : (transact (w, true) c).1 = ((transact (w, true) c).1.1, true) := by cases c <;> rfl
    have herr : (transact (w, true) c).2.err = false := by cases c <;> rfl
    rw [transactAll_cons, hflag]
    exact List.forall_mem_cons.mpr ⟨herr, ih _⟩

/-- Settles O24: an unseeded block is left as it is by all but `INIT`, and a seeded one answers data alone. -/
theorem bringUpIsOneInit : Obligations.BringUpIsOneInit := by
  intro cs s
  obtain ⟨t, ht, -, hpending, -⟩ := runEvents_commandEvents cs s
  refine ⟨t, ht, fun hs hcs => ?unseeded, fun hs => ?seeded⟩
  case unseeded => rw [hpending, hs, transactAll_fixed (fun _ => transact_unseeded s.words) hcs]
  case seeded =>
    rw [hs] at hpending
    refine ⟨(transactAll (s.words, true) cs).2.map Response.data, ?_, ?_⟩
    · rw [List.length_map, transactAll_length]
    · have hrebuild : ∀ r ∈ (transactAll (s.words, true) cs).2, (⟨false, r.data⟩ : Response) = r := fun r hr => by
        rw [← transactAll_seeded_err s.words cs r hr]
      rw [hpending, List.map_map, List.append_cancel_left_eq]
      exact ((List.map_congr_left hrebuild).trans (List.map_id' _)).symm

/-! After `INIT` nothing of the past is left: the words are the seed's and the flag is set (40_seed_expander.md R44). -/

theorem transactAll_init (σ : Words × Bool) (seed : Word) (cs : List Instr) :
    transactAll σ (.init seed :: cs) =
      ((transactAll (expandSeed seed, true) cs).1, ⟨false, 0#64⟩ :: (transactAll (expandSeed seed, true) cs).2) := rfl

/-- Settles O30: after `INIT` the pure function sees the seed and the commands alone. -/
theorem sameSeedSameStream : Obligations.SameSeedSameStream := by
  intro seed cs s t
  obtain ⟨s', hs', hstate, hpending, -⟩ := runEvents_commandEvents (.init seed :: cs) s
  obtain ⟨t', ht', hstate', hpending', -⟩ := runEvents_commandEvents (.init seed :: cs) t
  rw [transactAll_init] at hstate hpending hstate' hpending'
  obtain ⟨hwords, hflag⟩ := Prod.mk.inj (hstate.trans hstate'.symm)
  exact ⟨s', t', _, hs', ht', hpending, hpending', hwords, hflag⟩

/-- Among zero words every command but `INIT` leaves zero words and answers (0, 0) (41_next_integer.md R54). -/
theorem transact_dead {c : Instr} (h : isInit c = false) :
    transact (Words.zero, true) c = ((Words.zero, true), ⟨false, 0#64⟩) := by
  cases c with
  | nop => rfl
  | init _ => cases h
  | next => decide
  | nextd => decide

theorem expandSeed_zero : expandSeed 0#64 = Words.zero := by decide

/-- Settles O37: seed 0 expands to zero words, among which only another `INIT` does anything. -/
theorem seedZeroStreamIsDead : Obligations.SeedZeroStreamIsDead := by
  intro cs s hcs
  obtain ⟨t, ht, hstate, hpending, -⟩ := runEvents_commandEvents (.init 0#64 :: cs) s
  rw [transactAll_init, expandSeed_zero, transactAll_fixed (fun _ => transact_dead) hcs] at hstate hpending
  obtain ⟨hwords, hflag⟩ := Prod.mk.inj hstate
  refine ⟨t, ht, hwords, hflag, ?_⟩
  rw [hpending, List.map_const', List.replicate_succ]

/-- With the flag a command other than `INIT` takes one step if it advances the state. -/
theorem transact_seeded (w : Words) {c : Instr} (h : isInit c = false) :
    (transact (w, true) c).1 = (if advances c then nextWords w else w, true) := by
  cases c with
  | nop => rfl
  | init _ => cases h
  | next => rw [nextWords_eq_closedNext]; rfl
  | nextd => rw [nextWords_eq_closedNext]; rfl

theorem transactAll_seeded (w : Words) {cs : List Instr} (h : cs.all (fun c => !isInit c) = true) :
    (transactAll (w, true) cs).1 = (nextWordsBy (cs.countP advances) w, true) := by
  induction cs generalizing w with
  | nil => rfl
  | cons c cs ih =>
    rw [List.all_cons, Bool.and_eq_true, Bool.not_eq_true'] at h
    rw [transactAll_cons, transact_seeded w h.1, ih _ h.2, List.countP_cons]
    cases advances c <;> rfl

/-- Settles O44: after the seed's words each advancing command counts one step. -/
theorem streamIsSeedAndCount : Obligations.StreamIsSeedAndCount := by
  intro seed cs s hcs
  obtain ⟨t, ht, hstate, -, -⟩ := runEvents_commandEvents (.init seed :: cs) s
  rw [transactAll_init, transactAll_seeded _ hcs] at hstate
  obtain ⟨hwords, hflag⟩ := Prod.mk.inj hstate
  exact ⟨t, ht, hflag, hwords⟩

end Sys2Proof.Proofs
end

section
/-! SUPPORT. The words of an unseeded block cannot be observed (10_state.md R15, R17): states that the host cannot tell apart stay so
under every event. -/

namespace Sys2Proof.Proofs

open Sys2Proof Sys2Proof.Machine Sys2Proof.Laws

/-- A command reads the words of a seeded block alone. -/
theorem transact_hostSame {v w : Words} {seeded : Bool} (h : seeded = true → v = w) (i : Instr) :
    (transact (v, seeded) i).2 = (transact (w, seeded) i).2
    ∧ (transact (v, seeded) i).1.2 = (transact (w, seeded) i).1.2
    ∧ ((transact (v, seeded) i).1.2 = true → (transact (v, seeded) i).1.1 = (transact (w, seeded) i).1.1) := by
  cases seeded with
  | true =>
    rw [h rfl]
    exact ⟨rfl, rfl, fun _ => rfl⟩
  | false => cases i <;> simp [transact]

theorem hostSame_answered {s t : State} (h : HostSame s t) (i : Instr) :
    HostSame (answered (transact (s.words, s.seeded) i) s) (answered (transact (t.words, t.seeded) i) t) := by
  obtain ⟨hseeded, hinput, hpending, hdelivered, hshown, hresets, hwords⟩ := h
  obtain ⟨hrsp, hflag, hwords'⟩ := transact_hostSame hwords i
  rw [← hseeded]
  refine ⟨hflag, hinput, ?_, hdelivered, hshown, hresets, hwords'⟩
  simp only [answered, hpending, hrsp, hflag]

theorem hostSame_deliver {s t : State} (h : HostSame s t) : HostSame (deliver s) (deliver t) := by
  obtain ⟨hseeded, hinput, hpending, hdelivered, hshown, hresets, hwords⟩ := h
  cases hp : s.pending with
  | nil =>
    rw [deliver_none hp, deliver_none (hpending ▸ hp)]
    exact ⟨hseeded, hinput, hpending, hdelivered, hshown, hresets, hwords⟩
  | cons p rest =>
    rw [deliver_some hp, deliver_some (hpending ▸ hp)]
    exact ⟨hseeded, hinput, rfl, congrArg (· ++ [p.rsp]) hdelivered, rfl, hresets, hwords⟩

/-- After a reset the words may differ as they will, for the block is unseeded. -/
theorem hostSame_applyReset {s t : State} (h : HostSame s t) : HostSame (applyReset s) (applyReset t) := by
  obtain ⟨-, hinput, -, -, -, hresets, -⟩ := h
  exact ⟨rfl, hinput, rfl, rfl, rfl, congrArg (· + 1) hresets, fun h => by cases h⟩

theorem hostSame_handleEvent {s t : State} (h : HostSame s t) (e : Event) :
    ∃ s' t', handleEvent e s = .next s' ∧ handleEvent e t = .next t' ∧ HostSame s' t' := by
  cases e with
  | command cw => exact ⟨_, _, handleEvent_command cw s, handleEvent_command cw t, hostSame_answered h (decode cw)⟩
  | take => exact ⟨_, _, rfl, rfl, hostSame_deliver h⟩
  | reset => exact ⟨_, _, rfl, rfl, hostSame_applyReset h⟩

theorem hostSame_runEvents {s t : State} (h : HostSame s t) (es : List Event) :
    ∃ s' t', runEvents es s = .next s' ∧ runEvents es t = .next t' ∧ HostSame s' t' := by
  induction es generalizing s t with
  | nil => exact ⟨s, t, rfl, rfl, h⟩
  | cons e es ih =>
    obtain ⟨s', t', hs, ht, h'⟩ := hostSame_handleEvent h e
    rw [runEvents_cons_next hs, runEvents_cons_next ht]
    exact ih h'

/-- No pin reads the words. -/
theorem pinsOut_eq_of_hostSame {s t : State} (h : HostSame s t) (c : EdgeChoice) : pinsOut c s = pinsOut c t := by
  obtain ⟨hseeded, -, hpending, -, hshown, -, -⟩ := h
  simp only [pinsOut, presentedResponse, seededPin, hseeded, hpending, hshown]

/-- Settles O23: every event keeps the states alike, and alike they show the same pins. -/
theorem unseededWordsUnobservable : Obligations.UnseededWordsUnobservable := by
  intro es s t h
  obtain ⟨s', t', hs, ht, h'⟩ := hostSame_runEvents h es
  exact ⟨s', t', hs, ht, h', pinsOut_eq_of_hostSame h'⟩

end Sys2Proof.Proofs
end

section
/-! SUPPORT. Assembler texts one after the other (30_encoding.md R36). -/

namespace Sys2Proof.Proofs

open Sys2Proof Sys2Proof.Machine Sys2Proof.Laws

/-- A line that assembles, and the rest of the text that does, come one after the other. -/
theorem assembleFrom_newline_eq_ok_iff {cs cur : List Char} {ea : List Event} :
    assembleFrom ('\n' :: cs) cur = .ok ea ↔
      ∃ es rest, assembleLine cur = .ok es ∧ assembleFrom cs [] = .ok rest ∧ ea = es ++ rest := by
  rw [assembleFrom, if_pos rfl]
  constructor
  · intro h
    split at h
    case h_1 es rest hline hrest =>
      cases h
      exact ⟨es, rest, hline, hrest, rfl⟩
    all_goals cases h
  · rintro ⟨es, rest, hline, hrest, rfl⟩
    rw [hline, hrest]

theorem assembleFrom_other {c : Char} (hc : c ≠ '\n') (cs cur : List Char) :
    assembleFrom (c :: cs) cur = assembleFrom cs (cur ++ [c]) := by
  rw [assembleFrom, if_neg hc]

/-- A text that assembles ends with its last line, so the text after it begins a line of its own. -/
theorem assembleFrom_append {a b cur : List Char} {ea eb : List Event} (ha : assembleFrom a cur = .ok ea)
    (hb : assembleFrom b [] = .ok eb) : assembleFrom (a ++ b) cur = .ok (ea ++ eb) := by
  induction a generalizing cur ea with
  | nil =>
    cases cur with
    | nil =>
      cases ha
      exact hb
    | cons c cur => cases ha
  | cons c cs ih =>
    rw [List.cons_append]
    by_cases hc : c = '\n'
    · subst hc
      obtain ⟨es, rest, hline, hrest, rfl⟩ := assembleFrom_newline_eq_ok_iff.mp ha
      rw [assembleFrom_newline_eq_ok_iff]
      exact ⟨es, rest ++ eb, hline, ih hrest, List.append_assoc es rest eb⟩
    · rw [assembleFrom_other hc] at ha ⊢
      exact ih ha

/-- Settles O49: the first text ends with a line, so the second is read as it is alone. -/
theorem programsConcatenate : Obligations.ProgramsConcatenate :=
  fun _ _ _ _ => assembleFrom_append

/-- Settles O51: three fixed texts. -/
theorem listingAssembles : Obligations.ListingAssembles := by
  refine ⟨?_, ?_, ?_⟩ <;> decide

end Sys2Proof.Proofs
end

section
/-! SUPPORT. Seed literals (30_encoding.md R36, log entry 13): the digits of a number, after any zeros and in either case, are read
back as the number; what is out of range is refused. -/

namespace Sys2Proof.Proofs

open Sys2Proof Sys2Proof.Machine Sys2Proof.Laws

theorem readDigits_append {base m n : Nat} {digit : Char → Option Nat} {cs : List Char}
    (h : readDigits base digit cs m = some n) (ds : List Char) :
    readDigits base digit (cs ++ ds) m = readDigits base digit ds n := by
  induction cs generalizing m with
  | nil =>
    cases h
    rfl
  | cons c cs ih =>
    rw [readDigits] at h
    rw [List.cons_append, readDigits]
    cases hc : digit c with
    | none =>
      rw [hc] at h
      cases h
    | some d =>
      rw [hc] at h
      exact ih h

theorem readDigits_cons {base n d : Nat} {digit : Char → Option Nat} {c : Char} (h : digit c = some d) (cs : List Char) :
    readDigits base digit (c :: cs) n = readDigits base digit cs (n * base + d) := by
  rw [readDigits, h]

section Base

variable {base : Nat} {digit : Char → Option Nat} (hb : 1 < base) (hdigit : ∀ d < base, digit d.digitChar = some d)
include hb hdigit

/-- A number is read back from its digits, the most significant first. -/
theorem readDigits_toDigits (n : Nat) : readDigits base digit (Nat.toDigits base n) 0 = some n := by
  induction n using Nat.strong_induction_on with
  | _ n ih =>
    by_cases hn : n < base
    · rw [Nat.toDigits_of_lt_base hn, readDigits_cons (hdigit n hn), readDigits, Nat.zero_mul, Nat.zero_add]
    · have hlast := hdigit (n % base) (Nat.mod_lt n (by omega))
      rw [Nat.toDigits_of_base_le hb (by omega), readDigits_append (ih _ (Nat.div_lt_self (by omega) hb)),
        readDigits_cons hlast, readDigits, Nat.div_add_mod']

/-- Zeros before the digits add nothing. -/
theorem readDigits_zeros_toDigits (zeros n : Nat) :
    readDigits base digit (List.replicate zeros '0' ++ Nat.toDigits base n) 0 = some n := by
  have hzero : digit '0' = some 0 := hdigit 0 (by omega)
  induction zeros with
  | zero => exact readDigits_toDigits hb hdigit n
  | succ zeros ih => rw [List.replicate_succ, List.cons_append, readDigits_cons hzero, Nat.zero_mul, ih]

end Base

theorem decDigit_digitChar : ∀ d < 10, decDigit d.digitChar = some d := by decide

theorem hexDigit_digitChar : ∀ d < 16, hexDigit d.digitChar = some d := by decide

/-- The model's tests on characters are bounds on their code points. -/
theorem hexDigit_eq (c : Char) : hexDigit c =
    if 48 ≤ c.toNat ∧ c.toNat ≤ 57 then some (c.toNat - 48)
    else if 65 ≤ c.toNat ∧ c.toNat ≤ 70 then some (c.toNat - 55)
    else if 97 ≤ c.toNat ∧ c.toNat ≤ 102 then some (c.toNat - 87)
    else none := rfl

theorem toNat_toLower (c : Char) :
    c.toLower.toNat = if 65 ≤ c.toNat ∧ c.toNat ≤ 90 then c.toNat + 32 else c.toNat := by
  by_cases hc : 65 ≤ c.toNat ∧ c.toNat ≤ 90
  · have hupper : c.val ≥ 'A'.val ∧ c.val ≤ 'Z'.val := hc
    have hsum : (c.val + 32).toNat = (c.toNat + 32) % 2 ^ 32 := UInt32.toNat_add c.val 32
    rw [if_pos hc, Char.toLower, dif_pos hupper]
    exact hsum.trans (Nat.mod_eq_of_lt (by omega))
  · have hother : ¬ (c.val ≥ 'A'.val ∧ c.val ≤ 'Z'.val) := hc
    rw [if_neg hc, Char.toLower, dif_neg hother]

/-- A hexadecimal digit has one value in either case. -/
theorem hexDigit_toLower (c : Char) : hexDigit c.toLower = hexDigit c := by
  rw [hexDigit_eq, hexDigit_eq, toNat_toLower]
  by_cases hc : 65 ≤ c.toNat ∧ c.toNat ≤ 90
  · rw [if_pos hc, if_neg (by omega), if_neg (by omega)]
    by_cases hdigit : c.toNat ≤ 70
    · rw [if_pos (by omega), if_neg (by omega), if_pos (by omega), show c.toNat + 32 - 87 = c.toNat - 55 by omega]
    · rw [if_neg (by omega), if_neg (by omega), if_neg (by omega), if_neg (by omega)]
  · rw [if_neg hc]

theorem readDigits_toLower (base n : Nat) (cs : List Char) :
    readDigits base hexDigit (cs.map Char.toLower) n = readDigits base hexDigit cs n := by
  induction cs generalizing n with
  | nil => rfl
  | cons c cs ih =>
    rw [List.map_cons, readDigits, readDigits, hexDigit_toLower]
    cases hexDigit c with
    | none => rfl
    | some d => exact ih _

/-! A literal after `0x` is read by its digits, if it has 1 to 16 of them; one without `0x` by its digits, if their number is a
seed. -/

theorem parseSeed_hex {ds : List Char} {n : Nat} (h : readDigits 16 hexDigit ds 0 = some n)
    (hfits : hexDigitCountFits ds.length = true) : parseSeed ('0' :: 'x' :: ds) = .ok (BitVec.ofNat 64 n) := by
  rw [parseSeed, h]
  exact if_pos hfits

theorem parseSeed_hex_refused {ds : List Char} (hfits : hexDigitCountFits ds.length = false) :
    parseSeed ('0' :: 'x' :: ds) = .error .badSeed := by
  rw [parseSeed]
  cases readDigits 16 hexDigit ds 0 with
  | none => rfl
  | some n => simp [hfits]

theorem parseSeed_dec {ds : List Char} {n : Nat} (hne : ds ≠ []) (h : readDigits 10 decDigit ds 0 = some n) :
    parseSeed ds = if seedLiteralFits n then .ok (BitVec.ofNat 64 n) else .error .badSeed := by
  unfold parseSeed
  split
  · cases h
  · exact absurd rfl hne
  · rw [h]

theorem parseSeed_toDigits_ten (zeros n : Nat) : parseSeed (List.replicate zeros '0' ++ Nat.toDigits 10 n) =
    if seedLiteralFits n then .ok (BitVec.ofNat 64 n) else .error .badSeed :=
  parseSeed_dec (by simp) (readDigits_zeros_toDigits (by decide) decDigit_digitChar zeros n)

/-- Every word is a seed literal, and is the seed of its number. -/
theorem seedLiteralFits_toNat (seed : Word) : seedLiteralFits seed.toNat = true := by
  rw [seedLiteralFits, decide_eq_true_eq]
  exact Nat.le_of_lt_succ seed.isLt

theorem ofNat_toNat_seed (seed : Word) : BitVec.ofNat 64 seed.toNat = seed := by
  rw [BitVec.ofNat_toNat, BitVec.setWidth_eq]

/-- Settles O50: the digits of a number, in either base, after zeros and in either case, are read as the number; the two tests on
literals refuse the rest. -/
theorem everySeedHasItsLiterals : Obligations.EverySeedHasItsLiterals := by
  refine ⟨fun seed zeros => ⟨?decimal, fun ds hds hlength => ?hex⟩, fun ds hlength => ?hexRefused,
    fun n hn => ?decimalRefused⟩
  case decimal => rw [parseSeed_toDigits_ten, if_pos (seedLiteralFits_toNat seed), ofNat_toNat_seed]
  case hex =>
    have hread : readDigits 16 hexDigit ds 0 = some seed.toNat := by
      rw [← readDigits_toLower, hds, readDigits_zeros_toDigits (by decide) hexDigit_digitChar]
    have hpos : 1 ≤ ds.length := by
      have hlower := congrArg List.length hds
      rw [List.length_map, List.length_append] at hlower
      have hdigits : 0 < (Nat.toDigits 16 seed.toNat).length := Nat.length_toDigits_pos
      omega
    rw [parseSeed_hex hread (decide_eq_true ⟨hpos, hlength⟩), ofNat_toNat_seed]
  case hexRefused => exact parseSeed_hex_refused (decide_eq_false (by omega))
  case decimalRefused =>
    have hfits : seedLiteralFits n = false := decide_eq_false (by omega)
    have hparse := parseSeed_toDigits_ten 0 n
    rwa [hfits] at hparse

end Sys2Proof.Proofs
end
